-- ==== Sys2Proof/Word.lean ====
section
/-! DEFINITION. The word types of the machine (spec/00_scope.md R7, R10): every register slot, operand and stack
cell is 8 bits, an instruction word is 32 bits. Signed readings are two's complement (R10; log entry 17): `BitVec.toInt`
of a byte is the spec's `signed(v)`, `BitVec.toNat` its unsigned reading. -/

namespace Sys2Proof

/-- `u8`: a register slot, an operand byte, a stack cell (R7 `XLEN`, R21). -/
abbrev Byte := BitVec 8

/-- `u32`: one instruction word (R7 `ILEN`, R90). -/
abbrev Word := BitVec 32

end Sys2Proof
end

