-- ==== Sys2Proof/Syntax.lean ====
section
/-! DEFINITION. The syntax of the machine: addressing modes, opcodes, register names, and the decoded record as the ONE
inductive `Instr`, one constructor per row of the opcode table (spec/30_encoding.md R91, R92, R104, R105;
spec/10_state.md R20). -/

namespace Sys2Proof

/-- The four addressing modes (R92): register-register, register-immediate, single-register, single-immediate. -/
inductive Mode where
  | rr
  | ri
  | sr
  | si
deriving DecidableEq, Repr

/-- The eleven operation tags (R2, R91), in the order of R91. -/
inductive Opcode where
  | mov
  | add
  | sub
  | mul
  | cmp
  | push
  | pop
  | jmp
  | be
  | bne
  | print
deriving DecidableEq, Repr

/-- The nine named slots of the register file (R20). The number of slots `NREG` is a parameter whose default is this
enumeration's length (log entry 3). -/
inductive Reg where
  | r0
  | r1
  | r2
  | pc
  | sp
  | bp
  | zf
  | cf
  | of
deriving DecidableEq, Repr

/-- All addressing modes, in the order of R92. -/
def Mode.all : List Mode := [.rr, .ri, .sr, .si]

/-- All operation tags, in the order of R91. -/
def Opcode.all : List Opcode := [.mov, .add, .sub, .mul, .cmp, .push, .pop, .jmp, .be, .bne, .print]

/-- All named register slots, in the order of R20. -/
def Reg.all : List Reg := [.r0, .r1, .r2, .pc, .sp, .bp, .zf, .cf, .of]

/-- The three slots only the flag update may write (R26, R27). -/
def Reg.isFlag : Reg → Bool
  | .zf | .cf | .of => true
  | .r0 | .r1 | .r2 | .pc | .sp | .bp => false

/-- The decoded record `(op, mode, src, dest)` of R104: the constructor is the opcode tag, then the addressing mode, the
source byte and the destination byte. Both operand bytes are kept whole, the unused one too (R98): a register id is a
raw byte, checked when it is used and not when it is decoded (R28, R93). -/
inductive Instr where
  | mov (mode : Mode) (src dest : Byte)
  | add (mode : Mode) (src dest : Byte)
  | sub (mode : Mode) (src dest : Byte)
  | mul (mode : Mode) (src dest : Byte)
  | cmp (mode : Mode) (src dest : Byte)
  | push (mode : Mode) (src dest : Byte)
  | pop (mode : Mode) (src dest : Byte)
  | jmp (mode : Mode) (src dest : Byte)
  | be (mode : Mode) (src dest : Byte)
  | bne (mode : Mode) (src dest : Byte)
  | print (mode : Mode) (src dest : Byte)
deriving DecidableEq, Repr

/-- The operation tag of a record. -/
def Instr.opcode : Instr → Opcode
  | .mov _ _ _ => .mov
  | .add _ _ _ => .add
  | .sub _ _ _ => .sub
  | .mul _ _ _ => .mul
  | .cmp _ _ _ => .cmp
  | .push _ _ _ => .push
  | .pop _ _ _ => .pop
  | .jmp _ _ _ => .jmp
  | .be _ _ _ => .be
  | .bne _ _ _ => .bne
  | .print _ _ _ => .print

/-- The addressing mode of a record. -/
def Instr.mode : Instr → Mode
  | .mov m _ _ | .add m _ _ | .sub m _ _ | .mul m _ _ | .cmp m _ _ | .push m _ _ | .pop m _ _
  | .jmp m _ _ | .be m _ _ | .bne m _ _ | .print m _ _ => m

/-- The source byte of a record. -/
def Instr.src : Instr → Byte
  | .mov _ s _ | .add _ s _ | .sub _ s _ | .mul _ s _ | .cmp _ s _ | .push _ s _ | .pop _ s _
  | .jmp _ s _ | .be _ s _ | .bne _ s _ | .print _ s _ => s

/-- The destination byte of a record. -/
def Instr.dest : Instr → Byte
  | .mov _ _ d | .add _ _ d | .sub _ _ d | .mul _ _ d | .cmp _ _ d | .push _ _ d | .pop _ _ d
  | .jmp _ _ d | .be _ _ d | .bne _ _ d | .print _ _ d => d

end Sys2Proof
end

