-- ==== Sys2Proof/Config.lean ====
section
/-! DEFINITION. The parameters of the hardware (spec/00_scope.md R7). The sizes the source states are constants. Every
parameter the spec decides for itself is a field of `Config`, which the decoder, the operations and the step take as an
argument, so that a claim can be quantified over it (R7, R9, and the reading rules at the end of
spec/92_eei_decisions.md). The spec's defaults are `Encoding.standard` and `Config.standard` in Decode.lean. -/

namespace Sys2Proof

/-- `STACK_CAP`: 256 stack cells (R7, R30). -/
abbrev Config.stackCap : Nat := 256

/-- `STACK_TOP` = `STACK_CAP` − 1: the reset value of SP and BP, and the SP of an empty stack (R7, R24, R39). -/
abbrev Config.stackTop : Byte := 255

/-- `MAX_PROG`: the largest program, 255 instructions (R7, R31, R122). -/
abbrev Config.maxProg : Nat := 255

/-- `WORD_ORDER`: which byte of a four-byte group of the program image is the word's lowest byte (R66; log entry 4). -/
inductive WordOrder where
  | little
  | big
deriving DecidableEq, Repr

/-- The numeric assignments the source does not give (R7): `OPC`, `MODEV`, `REGID` and `WORD_ORDER`. -/
structure Encoding where
  /-- `OPC`, the opcode field value of each operation (R91; log entry 1). -/
  opc : Opcode → BitVec 6
  /-- `MODEV`, the mode field value of each addressing mode (R92; log entry 2). -/
  modev : Mode → BitVec 2
  /-- `REGID`, the identifier of each register slot (R20; log entry 3). -/
  regid : Reg → Byte
  /-- `WORD_ORDER`, the byte order of the program image (R66; log entry 4). -/
  order : WordOrder

/-- What any assignment must satisfy to name things apart: D1 "injective", D2 "bijective" (an injective map of the four
modes into two bits is onto), and D3's identifiers all different. -/
def Encoding.Injective (E : Encoding) : Prop :=
  (∀ a b, E.opc a = E.opc b → a = b) ∧ (∀ a b, E.modev a = E.modev b → a = b) ∧
    (∀ a b, E.regid a = E.regid b → a = b)

/-- `PC_WRAP`: what the increment does at 255 (R125, D7, U10; log entry 7). -/
inductive PcWrap where
  /-- The default: 255 is followed by 0. -/
  | wrap
  /-- The cautious variant of D7 and U10: the step is refused. -/
  | refuse
deriving DecidableEq, Repr

/-- `FLAG_WRITE`: the effect of a generic write to a flag slot (R27, D6, U9; log entry 6). -/
inductive FlagWrite where
  /-- The default: the fault ProtectedRegister. -/
  | fault
  /-- The alternative D6 names: the write is ignored and the instruction goes on. -/
  | ignore
deriving DecidableEq, Repr

/-- The parameters of R7 whose values are the spec's own choices. -/
structure Config where
  /-- `OPC`, `MODEV`, `REGID`, `WORD_ORDER`. -/
  enc : Encoding
  /-- `NREG`, the number of register slots: an identifier is valid exactly when it is below it (R28; log entry 3). -/
  nreg : Nat
  /-- `PC_WRAP`. -/
  pcWrap : PcWrap
  /-- `FLAG_WRITE`. -/
  flagWrite : FlagWrite
  /-- `STACK_INIT`, the stack contents after reset, as (cell, byte) pairs (D8; log entry 8). -/
  stackInit : List (Nat × Byte)

/-- What the numbers of a configuration must satisfy: different things have different numbers, and every named slot has an
identifier below `NREG` (D1, D2, D3, R28). -/
def Config.Ok (c : Config) : Prop := c.enc.Injective ∧ ∀ r, (c.enc.regid r).toNat < c.nreg

end Sys2Proof
end

