-- ==== Sys2Proof/WellFormed.lean ====
section
/-! DEFINITION. The well-formedness of a record: the mode acceptance table (spec/30_encoding.md R95). A record that
passed the decoder is well formed, and execution is defined on well-formed records only (R132). -/

namespace Sys2Proof

/-- The mode acceptance table of R95. -/
def Opcode.accepts : Opcode → Mode → Bool
  | .mov, m | .add, m | .sub, m | .mul, m | .cmp, m =>
    match m with
    | .rr | .ri => true
    | .sr | .si => false
  | .push, m | .jmp, m | .be, m | .bne, m | .print, m =>
    match m with
    | .sr | .si => true
    | .rr | .ri => false
  | .pop, m =>
    match m with
    | .sr => true
    | .rr | .ri | .si => false

/-- A well-formed record: its opcode accepts its mode (R95). Operand bytes are not checked (R93, R98). -/
def Instr.wf (i : Instr) : Bool := i.opcode.accepts i.mode

end Sys2Proof
end

