-- ==== Sys2Proof/Decode.lean ====
section
/-! DEFINITION. The instruction word, the decoder and, after it, the encoder (spec/30_encoding.md R90 to R107), the
program image (R66, R106, R237), the assembler conventions (R102), and the decoder as the opcode table numbers bits.
`decodeWith` is total on all 2^32 words and rejects by name. -/

namespace Sys2Proof

/-! ### The default numeric assignment -/

/-- `OPC`, the spec's default opcode values (R91; its decision D1, log entry 1). -/
def opcodeValue : Opcode → BitVec 6
  | .mov => 1
  | .add => 2
  | .sub => 3
  | .mul => 4
  | .cmp => 5
  | .push => 6
  | .pop => 7
  | .jmp => 8
  | .be => 9
  | .bne => 10
  | .print => 11

/-- `MODEV`, the spec's default mode values (R92; its decision D2, log entry 2). -/
def modeValue : Mode → BitVec 2
  | .rr => 0
  | .ri => 1
  | .sr => 2
  | .si => 3

/-- `REGID`, the spec's default register identifiers (R20; its decision D3, log entry 3). -/
def regValue : Reg → Byte
  | .r0 => 0
  | .r1 => 1
  | .r2 => 2
  | .pc => 3
  | .sp => 4
  | .bp => 5
  | .zf => 6
  | .cf => 7
  | .of => 8

/-- The spec's default assignment of numbers (R7). -/
def Encoding.standard : Encoding :=
  { opc := opcodeValue, modev := modeValue, regid := regValue, order := .little }

/-- The default of every parameter (R7), with which `exec` and `step` run: nine slots, the increment wraps, a write to a
flag slot faults, the stack is all zero. -/
def Config.standard : Config :=
  { enc := .standard, nreg := 9, pcWrap := .wrap, flagWrite := .fault, stackInit := [] }

/-! ### Fields of the word (R90) -/

/-- `w[7:2]`. -/
def fieldOpcode (w : Word) : BitVec 6 := w.extractLsb' 2 6

/-- `w[1:0]`. -/
def fieldMode (w : Word) : BitVec 2 := w.extractLsb' 0 2

/-- `w[15:8]`, the reserved byte: the decoder does not look at it (R97; log entry 5). -/
def fieldReserved (w : Word) : Byte := w.extractLsb' 8 8

/-- `w[23:16]`. -/
def fieldSrc (w : Word) : Byte := w.extractLsb' 16 8

/-- `w[31:24]`. -/
def fieldDest (w : Word) : Byte := w.extractLsb' 24 8

/-! ### The decoder (R96) -/

/-- The two causes of a DecodeError (R221). -/
inductive DecodeCause where
  | unknownOpcode
  | illegalMode
deriving DecidableEq, Repr

/-- A DecodeError: its cause and the 0-based index of the word in the stream (R96, R220). -/
structure DecodeError where
  cause : DecodeCause
  index : Nat
deriving DecidableEq, Repr

/-- The operation an opcode field value is registered for, if any (R99, R105). -/
def opcodeOf (E : Encoding) (f : BitVec 6) : Option Opcode := Opcode.all.find? fun o => E.opc o == f

/-- The addressing mode of a mode field value (R92). -/
def modeOf (E : Encoding) (f : BitVec 2) : Option Mode := Mode.all.find? fun m => E.modev m == f

/-- The Instruction Registry (R105): the record an opcode builds from its mode and operand bytes. -/
def registry (o : Opcode) (m : Mode) (src dest : Byte) : Instr :=
  match o with
  | .mov => .mov m src dest
  | .add => .add m src dest
  | .sub => .sub m src dest
  | .mul => .mul m src dest
  | .cmp => .cmp m src dest
  | .push => .push m src dest
  | .pop => .pop m src dest
  | .jmp => .jmp m src dest
  | .be => .be m src dest
  | .bne => .bne m src dest
  | .print => .print m src dest

/-- `Decode(w)` of R96 under an assignment `E`: first the opcode, then the mode; the reserved byte and the operand bytes
are not looked at. -/
def decodeWith (E : Encoding) (w : Word) : Except DecodeCause Instr :=
  match opcodeOf E (fieldOpcode w) with
  | none => .error .unknownOpcode
  | some o =>
    match modeOf E (fieldMode w) with
    | none => .error .illegalMode
    | some m => if o.accepts m then .ok (registry o m (fieldSrc w) (fieldDest w)) else .error .illegalMode

/-- The decoder under the default assignment. -/
def decode (w : Word) : Except DecodeCause Instr := decodeWith .standard w

/-- Phase 1 of a run (R120) under an assignment `E`: the words in stream order, the first that fails reported with its
index; the number is the index of the list's first word. -/
def decodeStream (E : Encoding) : List Word → Nat → Except DecodeError (List Instr)
  | [], _ => .ok []
  | w :: ws, i =>
    match decodeWith E w with
    | .error c => .error { cause := c, index := i }
    | .ok r =>
      match decodeStream E ws (i + 1) with
      | .error e => .error e
      | .ok rs => .ok (r :: rs)

/-! ### The encoder (R90, R102) -/

/-- `w = dest ++ src ++ rsvd ++ opcode ++ mode` (R90) under an assignment `E`, with any reserved byte. -/
def encodeWith (E : Encoding) (rsvd : Byte) (i : Instr) : Word :=
  i.dest ++ i.src ++ rsvd ++ E.opc i.opcode ++ E.modev i.mode

/-- The assembler's word: the default assignment, the reserved byte 0 (R97, R102). -/
def encode (i : Instr) : Word := encodeWith .standard 0 i

/-! ### The program image (R66, R106), the external loader's side of the decoder -/

/-- Four image bytes in file order make one word (R66). -/
def wordOfBytes (o : WordOrder) (b0 b1 b2 b3 : Byte) : Word :=
  match o with
  | .little => b3 ++ b2 ++ b1 ++ b0
  | .big => b0 ++ b1 ++ b2 ++ b3

/-- The four image bytes of a word, in file order (R66). -/
def bytesOfWord (o : WordOrder) (w : Word) : List Byte :=
  match o with
  | .little => [w.extractLsb' 0 8, w.extractLsb' 8 8, w.extractLsb' 16 8, w.extractLsb' 24 8]
  | .big => [w.extractLsb' 24 8, w.extractLsb' 16 8, w.extractLsb' 8 8, w.extractLsb' 0 8]

/-- The external loader's one error, which is not a fault of the core (R237). -/
inductive LoaderError where
  | lengthNotMultipleOf4
deriving DecidableEq, Repr

/-- The words of a program image, total on any bytes: a length that is no multiple of 4 is the loader's error and never
reaches the decoder (R106, R237). -/
def imageWords (o : WordOrder) : List Byte → Except LoaderError (List Word)
  | [] => .ok []
  | b0 :: b1 :: b2 :: b3 :: rest => (imageWords o rest).map (wordOfBytes o b0 b1 b2 b3 :: ·)
  | [_] => .error .lengthNotMultipleOf4
  | [_, _] => .error .lengthNotMultipleOf4
  | [_, _, _] => .error .lengthNotMultipleOf4

/-- The image of a list of words (R106). -/
def wordsImage (o : WordOrder) (ws : List Word) : List Byte := ws.flatMap (bytesOfWord o)

/-! ### The assembler conventions (R102) -/

/-- An operand as the spec's assembler writes it: a named register, a register id written `r#<n>`, or an immediate byte
(R102). -/
inductive AsmOperand where
  | reg (r : Reg)
  | regNum (n : Byte)
  | imm (v : Byte)
deriving DecidableEq, Repr

/-- The operand byte under an assignment `E`: the register's identifier, or the immediate. -/
def AsmOperand.byte (E : Encoding) : AsmOperand → Byte
  | .reg r => E.regid r
  | .regNum n => n
  | .imm v => v

/-- Whether the operand is a register. -/
def AsmOperand.isReg : AsmOperand → Bool
  | .reg _ | .regNum _ => true
  | .imm _ => false

/-- Assembly of one line (R102) under an assignment `E`: the mode from the operand kinds, destination first, the one
operand of a one-operand form in the `dest` byte, unused bytes 0; `none` is an assembly error (a mode the opcode does
not accept, or a form with no encoding). -/
def assemble (E : Encoding) (o : Opcode) (operands : List AsmOperand) : Option Word :=
  let put (m : Mode) (src dest : Byte) : Option Word :=
    if o.accepts m then some (encodeWith E 0 (registry o m src dest)) else none
  match operands with
  | [d, s] => if d.isReg then put (if s.isReg then .rr else .ri) (s.byte E) (d.byte E) else none
  | [d] => put (if d.isReg then .sr else .si) 0 (d.byte E)
  | _ => none

/-! ### The decoder, as the opcode table numbers bits -/

/-- The instruction the decoder reads from an instruction whose `nbits` table bits are `w` (bit 0 the least significant
bit of the word), the bits above `nbits` being 0: laid out as image bytes and read back as the loader reads them. -/
def decodeTableWord (nbits w : Nat) : Option Instr :=
  match imageWords .little (bytesOfWord .little (BitVec.ofNat 32 (w % 2 ^ nbits))) with
  | .ok [v] =>
    match decode v with
    | .ok i => some i
    | .error _ => none
  | _ => none

end Sys2Proof
end

