-- ==== Sys2Proof/Machine/State.lean ====
section
/-! DEFINITION. The state of the machine as plain data (spec/10_state.md R20 to R36), its value after reset (R39, R240),
and the reasons a step can end without a next state. A fault of the machine is not such a reason: it is a state, with `run`
Faulted and `fault` filled in (R226; log entry 11). -/

namespace Sys2Proof.Machine

/-- The nine fault causes (R221, R222). -/
inductive Cause where
  /-- R221: the opcode field names no registered behaviour (raised by the decode of the word stream). -/
  | unknownOpcode
  /-- R221: the opcode does not accept the mode (raised by the decode of the word stream). -/
  | illegalMode
  /-- R222, R28: a register id used as an operand is 9 or more. -/
  | invalidRegister
  /-- R27, R222: a generic register write names a flag slot (log entry 6). -/
  | protectedRegister
  /-- R61, R222: a push with SP = 0. -/
  | stackOverflow
  /-- R61, R222: a pop with SP = 255. -/
  | stackUnderflow
  /-- R126, R222: a jump target at or past the program's end. -/
  | invalidJumpTarget
  /-- R122, R222: a load of more than 255 records. -/
  | programTooLarge
  /-- R238: a missing instruction slot; unreachable (log entry 19). -/
  | internalInvariant
deriving DecidableEq, Repr

/-- The fault record `(kind, index)` of R220; `kind` is the cause (log entry 11). -/
structure FaultRecord where
  cause : Cause
  index : Nat
deriving DecidableEq, Repr

/-- The run state (R32, R130). -/
inductive RunState where
  | running
  | halted
  | faulted
deriving DecidableEq, Repr

/-- A memory: (address, byte) pairs, in the canonical form `Memory.wf` of Machine/Memory.lean. -/
abbrev Memory := List Host.Cell

/-- The whole state of the machine (the tuple at the head of spec/10_state.md, "and nothing else"). -/
structure State where
  /-- General register R0 (R22). -/
  r0 : Byte
  /-- General register R1 (R22). -/
  r1 : Byte
  /-- General register R2 (R22). -/
  r2 : Byte
  /-- Program counter: the index of the instruction being executed (R23). -/
  pc : Byte
  /-- Stack pointer (R24). -/
  sp : Byte
  /-- Base pointer (R25). -/
  bp : Byte
  /-- Zero flag (R26; read through a register access as 0 or 1, log entry 9). -/
  zf : Bool
  /-- Carry flag (R26). -/
  cf : Bool
  /-- Overflow flag (R26). -/
  of : Bool
  /-- The slots `x[i]`, `i < NREG`, that the enumeration of R20 does not name, by identifier: none under the default
  `NREG` = 9, one under the document's 10 (R20, 90_conflicts.md C1; log entry 3). -/
  spare : Memory
  /-- Stack memory, 256 cells (R30). -/
  stack : Memory
  /-- Program store: the decoded records, `prog[0]` first (R31). -/
  prog : List Instr
  /-- Run state (R32). -/
  run : RunState
  /-- Fault record, empty unless `run` is Faulted (R32, R220). -/
  fault : Option FaultRecord
  /-- Print channel, oldest entry first (R33). -/
  out : List Int
deriving DecidableEq, Repr

/-- `len`, the number of records in the program store (R31; stored once, log entry 22). -/
def State.len (s : State) : Nat := s.prog.length

/-- Reset with the stack contents `STACK_INIT` = `stack` (R39, R240; D8 leaves these contents open). A slot without a name
is zeroed like every register but SP and BP. -/
def State.resetWith (stack : Memory) : State :=
  { r0 := 0, r1 := 0, r2 := 0, pc := 0, sp := Config.stackTop, bp := Config.stackTop,
    zf := false, cf := false, of := false, spare := [],
    stack := stack, prog := [], run := .running, fault := none, out := [] }

/-- Reset under a configuration (R39, R240). -/
def State.resetOf (c : Config) : State := State.resetWith c.stackInit

/-- The machine right after reset (R39): the stack contents are the spec's default, all zero (DESIGN CHOICE, log
entry 8). -/
def State.reset : State := State.resetWith []

/-- Reasons a step stops the machine outside the spec's own fault entry: there are none. Every fault of this machine is a
next state (R226), and `InternalInvariant` (R238) is entered in the same way by the unreachable arm of the dispatch loop.
Nobody raises a `Fault`; that is safe, since no behaviour is hidden behind one (log entries 11 and 19). -/
inductive Fault where
deriving DecidableEq, Repr

/-- Reasons the model gives an instruction no meaning. -/
inductive Refusal where
  /-- Raised by an arm of `exec` whose instruction has no meaning yet (no arm does). Safe: a stop proves nothing false. -/
  | notModelled (mnemonic : String)
  /-- Raised by every meaning on a record whose mode its opcode does not accept (R132 "defined only for its accepted
  modes"; U6 "refuse"). No such record leaves the decoder (R96). Safe: a stop, on records no program holds (log
  entry 20). -/
  | illFormedRecord
  /-- Raised by the increment at PC = 255 under `PC_WRAP` = refuse (D7, U10), never under the default and so never by `exec`
  or `step`. Safe: a stop (log entry 7). -/
  | pcWouldWrap
deriving DecidableEq, Repr

end Sys2Proof.Machine
end

