-- ==== Sys2Proof/Machine/Memory.lean ====
section
/-! DEFINITION. A memory of bytes (the stack; the register slots without a name) as a canonical list of (address, byte)
pairs: its form, the read and the write of one cell (spec/10_state.md R30, spec/20_memory.md R60, R63, R74). -/

namespace Sys2Proof.Machine

/-- What a cell that is not listed reads as: the default of `STACK_INIT`, 0 (R39, D8; DESIGN CHOICE, log entry 8). A
register slot without a name is zeroed by reset too (R39). -/
def unlistedByte : Byte := 0

/-- The canonical form: addresses strictly rising and below `STACK_CAP`, no entry equal to what an unlisted cell reads
as. -/
def Memory.wf : Memory → Bool
  | [] => true
  | (a, v) :: m => decide (a < Config.stackCap) && decide (v ≠ unlistedByte) && m.all (fun c => decide (a < c.1)) && Memory.wf m

/-- The content of cell `a` (R74 `MemRead`). -/
def readCell : Memory → Nat → Byte
  | [], _ => unlistedByte
  | (b, w) :: m, a => if a = b then w else readCell m a

/-- Set cell `a` to `v` and change no other cell (R74 `MemWrite`), keeping the canonical form. -/
def writeCell : Memory → Nat → Byte → Memory
  | [], a, v => if v = unlistedByte then [] else [(a, v)]
  | (b, w) :: m, a, v =>
    if a < b then
      if v = unlistedByte then (b, w) :: m else (a, v) :: (b, w) :: m
    else if a = b then
      if v = unlistedByte then m else (a, v) :: m
    else (b, w) :: writeCell m a v

/-- `MemRead(a, 1)` on the state: `a` is a byte, so every address exists (R64, R74). -/
def memRead (a : Byte) (s : State) : Byte := readCell s.stack a.toNat

/-- `MemWrite(a, 1, v)` on the state (R74). -/
def memWrite (a v : Byte) (s : State) : State := { s with stack := writeCell s.stack a.toNat v }

end Sys2Proof.Machine
end

