-- ==== Sys2Proof/Machine/Ops.lean ====
section
/-! DEFINITION. The named operations every instruction shares, under a configuration where a parameter of R7 enters:
register accessors (spec/10_state.md R29), stack operations (spec/20_memory.md R61), the print channel (R33), the PC
writers and the step outcome (spec/40_core_pipeline.md R124 to R126), fault entry (spec/60_exceptions.md R226), the
halt, and the program load (R122). There is no return from a fault (R229). -/

namespace Sys2Proof.Machine

/-! ### The register file -/

/-- A flag read as a register: `0x00` when clear, `0x01` when set (R26; log entry 9). -/
def flagByte (b : Bool) : Byte := if b then 1 else 0

/-- The raw read `x[r]` of a slot (R20). -/
def State.get (s : State) : Reg → Byte
  | .r0 => s.r0
  | .r1 => s.r1
  | .r2 => s.r2
  | .pc => s.pc
  | .sp => s.sp
  | .bp => s.bp
  | .zf => flagByte s.zf
  | .cf => flagByte s.cf
  | .of => flagByte s.of

/-- The raw write `x[r] <- v` of a slot that is no flag. The flag slots are written by `flagWrite` alone (R26, R27), so
this leaves them as they are; `regWrite` never calls it on one. -/
def State.set (s : State) (r : Reg) (v : Byte) : State :=
  match r with
  | .r0 => { s with r0 := v }
  | .r1 => { s with r1 := v }
  | .r2 => { s with r2 := v }
  | .pc => { s with pc := v }
  | .sp => { s with sp := v }
  | .bp => { s with bp := v }
  | .zf | .cf | .of => s

/-- A slot of the register file: one of the nine named, or one below `NREG` that the enumeration does not name, by its
identifier (R20, C1; log entry 3). -/
inductive Slot where
  | named (r : Reg)
  | spare (id : Byte)
deriving DecidableEq, Repr

/-- The three slots of R26. -/
def Slot.isFlag : Slot → Bool
  | .named r => r.isFlag
  | .spare _ => false

/-- The raw read of any slot (R20). -/
def State.read (s : State) : Slot → Byte
  | .named r => s.get r
  | .spare id => readCell s.spare id.toNat

/-- The raw write of any slot that is no flag (R20); a flag slot is left as it is. -/
def State.write (s : State) (d : Slot) (v : Byte) : State :=
  match d with
  | .named r => s.set r v
  | .spare id => { s with spare := writeCell s.spare id.toNat v }

/-- The named slot that has an identifier, under an assignment `E`. -/
def regOfId (E : Encoding) (id : Byte) : Option Reg := Reg.all.find? fun r => E.regid r == id

/-- The slot a register identifier names: the whole byte is the id, and it names one exactly when it is below `NREG` (R28;
log entries 3 and 21). -/
def slotOf (c : Config) (id : Byte) : Option Slot :=
  if c.nreg ≤ id.toNat then none
  else
    match regOfId c.enc id with
    | some r => some (.named r)
    | none => some (.spare id)

/-- `RegRead(id)` (R29): faults on an id out of range, otherwise reads any slot, flags and PC included. -/
def regRead (c : Config) (id : Byte) (s : State) : Except Cause Byte :=
  match slotOf c id with
  | none => .error .invalidRegister
  | some d => .ok (s.read d)

/-- Whether the generic write raises on a slot (R27): on a flag slot, unless `FLAG_WRITE` says that the write is ignored
(log entry 6). -/
def protects (c : Config) (d : Slot) : Bool :=
  match c.flagWrite with
  | .fault => d.isFlag
  | .ignore => false

/-- `RegWrite(id, v)` (R29): the range check, then the flag protection (R27), then the plain write, PC, SP and BP included
(log entry 14). A write that reaches a flag slot, under `FLAG_WRITE` = ignore, leaves it as it is. -/
def regWrite (c : Config) (id v : Byte) (s : State) : Except Cause State :=
  match slotOf c id with
  | none => .error .invalidRegister
  | some d => if protects c d then .error .protectedRegister else .ok (s.write d v)

/-- `FlagWrite(z, c, o)` (R29): the only writer of the flags, all three together. -/
def flagWrite (z c o : Bool) (s : State) : State := { s with zf := z, cf := c, of := o }

/-! ### The stack (R61) -/

/-- `StackPush(v)`: overflow at SP = 0 with nothing changed; otherwise SP is decremented and the new top written. -/
def stackPush (v : Byte) (s : State) : Except Cause State :=
  if s.sp = 0 then .error .stackOverflow
  else .ok (memWrite (s.sp - 1) v { s with sp := s.sp - 1 })

/-- `StackPop()`: underflow at SP = `STACK_TOP` with nothing changed; otherwise the top is read and SP incremented. The
cell keeps its content. -/
def stackPop (s : State) : Except Cause (Byte × State) :=
  if s.sp = Config.stackTop then .error .stackUnderflow
  else .ok (memRead s.sp s, { s with sp := s.sp + 1 })

/-! ### The print channel (R33) -/

/-- `Emit(v)`: append `signed(v)` (log entry 15). -/
def emit (v : Byte) (s : State) : State := { s with out := s.out ++ [v.toInt] }

/-! ### The program counter -/

/-- `IncrementPC()` (R125): modulo 256. -/
def incrementPC (s : State) : State := { s with pc := s.pc + 1 }

/-- The loop's increment under `PC_WRAP` (D7, U10; log entry 7). -/
def advance (c : Config) (s : State) : Host.Outcome State Fault Refusal :=
  match c.pcWrap with
  | .wrap => .next (incrementPC s)
  | .refuse => if s.pc = 255 then .refused .pcWouldWrap else .next (incrementPC s)

/-- `SetPC(t)` (R126): the target is unsigned and must be below `len`; PC is unchanged by the fault. -/
def setPC (t : Byte) (s : State) : Except Cause State :=
  if s.len ≤ t.toNat then .error .invalidJumpTarget else .ok { s with pc := t }

/-! ### Step outcome, fault entry and halt -/

/-- The step outcome (R34, R124). -/
inductive StepOutcome where
  | next
  | jumped
deriving DecidableEq, Repr

/-- What one execution of an instruction gives the loop: an outcome and the state it left, or a raised cause and the state
as it stood at the raise, with the earlier effects of the instruction kept (R76, R227). -/
inductive Execution where
  | done (outcome : StepOutcome) (s : State)
  | raise (cause : Cause) (s : State)
deriving DecidableEq, Repr

/-- FAULT ENTRY (R226, R129): the record is the cause and the PC at the moment of the raise, the run state becomes Faulted;
no increment, nothing saved, nothing rolled back, no handler. -/
def enterFault (k : Cause) (s : State) : State :=
  { s with run := .faulted, fault := some { cause := k, index := s.pc.toNat } }

/-- The loop's normal end (R123, R130). -/
def haltRun (s : State) : State := { s with run := .halted }

/-- Go on with the value of an operation, or raise its cause with the state as it stands (R226 "`raise K` inside a step
ends the instruction at that point"). -/
def orRaise {α : Type} (s : State) (r : Except Cause α) (go : α → Execution) : Execution :=
  match r with
  | .error k => .raise k s
  | .ok v => go v

/-- What the loop does with an execution (R123): increment after Next, leave PC after Jumped, enter the fault. -/
def finish (c : Config) : Execution → Host.Outcome State Fault Refusal
  | .done .next s => advance c s
  | .done .jumped s => .next s
  | .raise k s => .next (enterFault k s)

/-- The end of every meaning: an execution defined for the modes the opcode accepts, and no meaning in another (R132, U6;
log entry 20). -/
def runRecord (c : Config) (o : Opcode) (m : Mode) (e : Execution) : Host.Outcome State Fault Refusal :=
  if o.accepts m then finish c e else .refused .illFormedRecord

/-! ### The program store -/

/-- Fetch (R123): the record at an index, if the store has it. -/
def fetch (s : State) : Option Instr := s.prog[s.pc.toNat]?

/-- The cause a decode error is recorded under (R221). -/
def decodeCause : DecodeCause → Cause
  | .unknownOpcode => .unknownOpcode
  | .illegalMode => .illegalMode

/-- `LoadProgram` (R122): more than `MAX_PROG` records fault with the PC of that moment, which is the reset value 0 in a
load that follows a reset (log entry 16). -/
def loadProgram (recs : List Instr) (s : State) : State :=
  if Config.maxProg < recs.length then enterFault .programTooLarge s else { s with prog := recs }

/-- Phases 1 and 2 of a run (R120) on a machine just reset: decode every word, then load. A DecodeError takes the machine
straight to Faulted with the word's index and nothing loaded (R221). -/
def loadWords (c : Config) (ws : List Word) (s : State) : State :=
  match decodeStream c.enc ws 0 with
  | .error e => { s with run := .faulted, fault := some { cause := decodeCause e.cause, index := e.index } }
  | .ok recs => loadProgram recs s

end Sys2Proof.Machine
end

