-- ==== Sys2Proof/Machine/Flags.lean ====
section
/-! DEFINITION. The arithmetic unit and the two flag conventions (spec/42_arithmetic.md R170 to R173, spec/43_cmp.md R180,
spec/40_core_pipeline.md R127, R128). Intermediates are exact integers: the spec's 16-bit intermediates never wrap
(R173). -/

namespace Sys2Proof.Machine

/-- What an arithmetic instruction computes: the 8-bit result and the two conditions handed to `UpdateFlags`. -/
structure AluResult where
  result : Byte
  carry : Bool
  overflow : Bool
deriving DecidableEq, Repr

/-- The exact signed value lies outside −128 to 127 (R170, R171). -/
def outsideSigned (d : Int) : Bool := decide (d < -128) || decide (127 < d)

/-- ADD's computation (R170). -/
def aluAdd (a b : Byte) : AluResult :=
  { result := BitVec.ofNat 8 (a.toNat + b.toNat)
    carry := decide (255 < a.toNat + b.toNat)
    overflow := outsideSigned (a.toInt + b.toInt) }

/-- SUB's computation (R171): the carry is a borrow (log entry 10). -/
def aluSub (a b : Byte) : AluResult :=
  { result := BitVec.ofInt 8 ((a.toNat : Int) - (b.toNat : Int))
    carry := decide (a.toNat < b.toNat)
    overflow := outsideSigned (a.toInt - b.toInt) }

/-- MUL's computation (R172): unsigned, one condition for both flags (log entry 10). -/
def aluMul (a b : Byte) : AluResult :=
  { result := BitVec.ofNat 8 (a.toNat * b.toNat)
    carry := decide (255 < a.toNat * b.toNat)
    overflow := decide (255 < a.toNat * b.toNat) }

/-- `UpdateFlags(r, c, o)` (R127): ZF looks at the truncated result. -/
def updateFlags (r : Byte) (c o : Bool) (s : State) : State := flagWrite (decide (r = 0)) c o s

/-- `UpdateCmpFlags(d)` (R128): the sign of the exact signed difference. -/
def updateCmpFlags (d : Int) (s : State) : State :=
  flagWrite (decide (d = 0)) (decide (0 < d)) (decide (d < 0)) s

end Sys2Proof.Machine
end

