-- ==== Sys2Proof/Machine/Operands.lean ====
section
/-! DEFINITION. The operand resolver (spec/40_core_pipeline.md R121): the one place that tells a register operand from an
immediate. -/

namespace Sys2Proof.Machine

/-- `Resolve(mode, b)` (R121): in RR and SR the content of the register `b` names, in RI and SI the byte `b` unchanged
(R94). It has no side effect. -/
def resolve (c : Config) (m : Mode) (b : Byte) (s : State) : Except Cause Byte :=
  match m with
  | .rr | .sr => regRead c b s
  | .ri | .si => .ok b

end Sys2Proof.Machine
end

