-- ==== Sys2Proof/Machine/Arithmetic.lean ====
section
/-! DEFINITION. Arithmetic: ADD, SUB, MUL (spec/42_arithmetic.md R170 to R173). -/

namespace Sys2Proof.Machine

/-- What ADD, SUB and MUL share (R170): read `dest`, resolve `src`, write the result to `dest`, then set the flags. The
flag slots are protected at the write, after both reads. -/
def arithmetic (c : Config) (alu : Byte → Byte → AluResult) (m : Mode) (src dest : Byte) (s : State) : Execution :=
  orRaise s (regRead c dest s) fun a =>
  orRaise s (resolve c m src s) fun b =>
  orRaise s (regWrite c dest (alu a b).result s) fun s' =>
  .done .next (updateFlags (alu a b).result (alu a b).carry (alu a b).overflow s')

/-- ADD (R170). -/
def execAddWith (c : Config) (m : Mode) (src dest : Byte) (s : State) : Host.Outcome State Fault Refusal :=
  runRecord c .add m (arithmetic c aluAdd m src dest s)

/-- ADD under the default parameters. -/
def execAdd (m : Mode) (src dest : Byte) (s : State) : Host.Outcome State Fault Refusal := execAddWith .standard m src dest s

/-- SUB (R171), `dest − src`. -/
def execSubWith (c : Config) (m : Mode) (src dest : Byte) (s : State) : Host.Outcome State Fault Refusal :=
  runRecord c .sub m (arithmetic c aluSub m src dest s)

/-- SUB under the default parameters. -/
def execSub (m : Mode) (src dest : Byte) (s : State) : Host.Outcome State Fault Refusal := execSubWith .standard m src dest s

/-- MUL (R172). -/
def execMulWith (c : Config) (m : Mode) (src dest : Byte) (s : State) : Host.Outcome State Fault Refusal :=
  runRecord c .mul m (arithmetic c aluMul m src dest s)

/-- MUL under the default parameters. -/
def execMul (m : Mode) (src dest : Byte) (s : State) : Host.Outcome State Fault Refusal := execMulWith .standard m src dest s

end Sys2Proof.Machine
end

