-- ==== Sys2Proof/Machine/Branch.lean ====
section
/-! DEFINITION. Control transfer: JMP, BE, BNE (spec/45_branch.md R200 to R203). The target is in the `dest` byte; the
`src` byte is ignored (R98). -/

namespace Sys2Proof.Machine

/-- A taken transfer (R200, R203): resolve the target, then the checked jump; the outcome is Jumped. -/
def transfer (c : Config) (m : Mode) (dest : Byte) (s : State) : Execution :=
  orRaise s (resolve c m dest s) fun t =>
  orRaise s (setPC t s) fun s' =>
  .done .jumped s'

/-- JMP (R200). -/
def execJmpWith (c : Config) (m : Mode) (_src dest : Byte) (s : State) : Host.Outcome State Fault Refusal :=
  runRecord c .jmp m (transfer c m dest s)

/-- JMP under the default parameters. -/
def execJmp (m : Mode) (src dest : Byte) (s : State) : Host.Outcome State Fault Refusal := execJmpWith .standard m src dest s

/-- BE (R201): taken when ZF is set; not taken, the target is not looked at. -/
def execBeWith (c : Config) (m : Mode) (_src dest : Byte) (s : State) : Host.Outcome State Fault Refusal :=
  runRecord c .be m (if s.zf then transfer c m dest s else .done .next s)

/-- BE under the default parameters. -/
def execBe (m : Mode) (src dest : Byte) (s : State) : Host.Outcome State Fault Refusal := execBeWith .standard m src dest s

/-- BNE (R202): taken when ZF is clear; not taken, the target is not looked at. -/
def execBneWith (c : Config) (m : Mode) (_src dest : Byte) (s : State) : Host.Outcome State Fault Refusal :=
  runRecord c .bne m (if s.zf then .done .next s else transfer c m dest s)

/-- BNE under the default parameters. -/
def execBne (m : Mode) (src dest : Byte) (s : State) : Host.Outcome State Fault Refusal := execBneWith .standard m src dest s

end Sys2Proof.Machine
end

