-- ==== Sys2Proof/Machine/Cmp.lean ====
section
/-! DEFINITION. Compare: CMP (spec/43_cmp.md R180). -/

namespace Sys2Proof.Machine

/-- CMP (R180): the signed difference to the flags; `dest` is only read, so a flag slot is a legal one. -/
def execCmpWith (c : Config) (m : Mode) (src dest : Byte) (s : State) : Host.Outcome State Fault Refusal :=
  runRecord c .cmp m <|
    orRaise s (regRead c dest s) fun a =>
    orRaise s (resolve c m src s) fun b =>
    .done .next (updateCmpFlags (a.toInt - b.toInt) s)

/-- CMP under the default parameters. -/
def execCmp (m : Mode) (src dest : Byte) (s : State) : Host.Outcome State Fault Refusal := execCmpWith .standard m src dest s

end Sys2Proof.Machine
end

