-- ==== Sys2Proof/Machine/Mov.lean ====
section
/-! DEFINITION. Data movement: MOV (spec/41_mov.md R160). -/

namespace Sys2Proof.Machine

/-- MOV (R160): the source first, then the write; no flag. -/
def execMovWith (c : Config) (m : Mode) (src dest : Byte) (s : State) : Host.Outcome State Fault Refusal :=
  runRecord c .mov m <|
    orRaise s (resolve c m src s) fun v =>
    orRaise s (regWrite c dest v s) fun s' =>
    .done .next s'

/-- MOV under the default parameters. -/
def execMov (m : Mode) (src dest : Byte) (s : State) : Host.Outcome State Fault Refusal := execMovWith .standard m src dest s

end Sys2Proof.Machine
end

