-- ==== Sys2Proof/Machine/Print.lean ====
section
/-! DEFINITION. Output: PRINT (spec/46_print.md R210). The operand is in the `dest` byte; the `src` byte is ignored
(R98). -/

namespace Sys2Proof.Machine

/-- PRINT (R210): append the signed value of the operand to the print channel. -/
def execPrintWith (c : Config) (m : Mode) (_src dest : Byte) (s : State) : Host.Outcome State Fault Refusal :=
  runRecord c .print m <|
    orRaise s (resolve c m dest s) fun v =>
    .done .next (emit v s)

/-- PRINT under the default parameters. -/
def execPrint (m : Mode) (src dest : Byte) (s : State) : Host.Outcome State Fault Refusal := execPrintWith .standard m src dest s

end Sys2Proof.Machine
end

