-- ==== Sys2Proof/Machine/Stack.lean ====
section
/-! DEFINITION. Stack access: PUSH, POP (spec/44_stack.md R190, R191). The one operand is in the `dest` byte; the `src`
byte is ignored (R98). -/

namespace Sys2Proof.Machine

/-- PUSH (R190): the operand is resolved before the overflow test and before SP moves. -/
def execPushWith (c : Config) (m : Mode) (_src dest : Byte) (s : State) : Host.Outcome State Fault Refusal :=
  runRecord c .push m <|
    orRaise s (resolve c m dest s) fun v =>
    orRaise s (stackPush v s) fun s' =>
    .done .next s'

/-- PUSH under the default parameters. -/
def execPush (m : Mode) (src dest : Byte) (s : State) : Host.Outcome State Fault Refusal := execPushWith .standard m src dest s

/-- POP (R191): the pop happens before the register write, so a bad destination raises with SP already incremented (R227;
log entry 13). -/
def execPopWith (c : Config) (m : Mode) (_src dest : Byte) (s : State) : Host.Outcome State Fault Refusal :=
  runRecord c .pop m <|
    orRaise s (stackPop s) fun p =>
    orRaise p.2 (regWrite c dest p.1 p.2) fun s' =>
    .done .next s'

/-- POP under the default parameters. -/
def execPop (m : Mode) (src dest : Byte) (s : State) : Host.Outcome State Fault Refusal := execPopWith .standard m src dest s

end Sys2Proof.Machine
end

