-- ==== Sys2Proof/Machine/Dispatch.lean ====
section
/-! DEFINITION. The dispatch on the record's opcode, exhaustive (spec/40_core_pipeline.md R123, spec/30_encoding.md R105):
one direct call of a meaning for each of the eleven instructions. A meaning includes what the loop does with its outcome
(the increment after Next, or fault entry). -/

namespace Sys2Proof.Machine

def exec (i : Instr) (s : State) : Host.Outcome State Fault Refusal :=
  match i with
  | .mov m src dest => Sys2Proof.Machine.execMov m src dest s
  | .add m src dest => Sys2Proof.Machine.execAdd m src dest s
  | .sub m src dest => Sys2Proof.Machine.execSub m src dest s
  | .mul m src dest => Sys2Proof.Machine.execMul m src dest s
  | .cmp m src dest => Sys2Proof.Machine.execCmp m src dest s
  | .push m src dest => Sys2Proof.Machine.execPush m src dest s
  | .pop m src dest => Sys2Proof.Machine.execPop m src dest s
  | .jmp m src dest => Sys2Proof.Machine.execJmp m src dest s
  | .be m src dest => Sys2Proof.Machine.execBe m src dest s
  | .bne m src dest => Sys2Proof.Machine.execBne m src dest s
  | .print m src dest => Sys2Proof.Machine.execPrint m src dest s

end Sys2Proof.Machine
end

