-- ==== Sys2Proof/Machine/Loop.lean ====
section
/-! DEFINITION. The dispatch under a configuration, one pass of the dispatch loop (spec/40_core_pipeline.md R123, R130), and
the placing of one word where the loop fetches next. -/

namespace Sys2Proof.Machine

/-- `exec` under a configuration: the same eleven meanings (R105, R123). -/
def execWith (c : Config) (i : Instr) (s : State) : Host.Outcome State Fault Refusal :=
  match i with
  | .mov m src dest => execMovWith c m src dest s
  | .add m src dest => execAddWith c m src dest s
  | .sub m src dest => execSubWith c m src dest s
  | .mul m src dest => execMulWith c m src dest s
  | .cmp m src dest => execCmpWith c m src dest s
  | .push m src dest => execPushWith c m src dest s
  | .pop m src dest => execPopWith c m src dest s
  | .jmp m src dest => execJmpWith c m src dest s
  | .be m src dest => execBeWith c m src dest s
  | .bne m src dest => execBneWith c m src dest s
  | .print m src dest => execPrintWith c m src dest s

/-- One step of the machine (R123) with a given execution of records: the halt test, the fetch, the execution with its PC
update. A failed halt test is a step of its own (log entry 23). Halted and Faulted are final: the state stays as it is
(R130, R228; log entry 18). The `none` arm is the unreachable missing slot of R238 (log entry 19). -/
def loopPass (execute : Instr → State → Host.Outcome State Fault Refusal) (s : State) :
    Host.Outcome State Fault Refusal :=
  match s.run with
  | .running =>
    if s.len ≤ s.pc.toNat then .next (haltRun s)
    else
      match fetch s with
      | some i => execute i s
      | none => .next (enterFault .internalInvariant s)
  | .halted => .next s
  | .faulted => .next s

/-- One step under a configuration. -/
def stepWith (c : Config) (s : State) : Host.Outcome State Fault Refusal := loopPass (execWith c) s

/-- The program with the record `i` at index `k`: the slot replaced, or the store extended up to it with copies of `i`. -/
def placeRecord (k : Nat) (i : Instr) (prog : List Instr) : List Instr :=
  if k < prog.length then prog.set k i else prog ++ List.replicate (k + 1 - prog.length) i

/-- The state with one instruction word loaded where the next step fetches (log entry 12): the record is placed at PC, and
the machine is running with no fault. Index 255 is never fetched (R125), so a PC of 255 is set to 0. A word that does not
decode leaves what the load of such a word leaves: Faulted, index 0, nothing loaded (R221). -/
def placeWord (s : State) (nbits w : Nat) : State :=
  let t : State := { s with run := .running, fault := none, pc := if s.pc = 255 then 0 else s.pc }
  match decode (BitVec.ofNat 32 (w % 2 ^ nbits)) with
  | .ok i => { t with prog := placeRecord t.pc.toNat i s.prog }
  | .error c => { t with prog := [], run := .faulted, fault := some { cause := decodeCause c, index := 0 } }

end Sys2Proof.Machine
end

