-- ==== Sys2Proof/Machine/Step.lean ====
section
/-! DEFINITION. The step function, one pass of the dispatch loop (spec/40_core_pipeline.md R123), and the placing of a
word for the next step to run. -/

namespace Sys2Proof.Machine

/-- One step, under the default parameters: one pass of the dispatch loop (R123, R249). -/
def step (s : State) : Host.Outcome State Fault Refusal := loopPass exec s

/-- `s` with the instruction word `w` placed where the next step fetches (log entry 12). -/
def State.withFetchWord (s : State) (nbits w : Nat) : State := placeWord s nbits w

end Sys2Proof.Machine
end

