-- ==== Sys2Proof/Machine/Port.lean ====
section
/-! DEFINITION. The interface between the core and its host (spec/70_reset_and_hazards.md R250, R251; log entry 24): the
transactions `reset`, `start`, `done` and `peek`, and what a fault record tells (R220 to R222). `print` is the channel
`out` of the state, in order (R33). -/

namespace Sys2Proof.Machine

/-- The numeric label of a cause (R221, R222; the spec's own labels, which no instruction reads, log entry 11). -/
def Cause.code : Cause → Nat
  | .unknownOpcode => 1
  | .illegalMode => 2
  | .invalidRegister => 3
  | .protectedRegister => 4
  | .stackOverflow => 5
  | .stackUnderflow => 6
  | .invalidJumpTarget => 7
  | .programTooLarge => 8
  | .internalInvariant => 9

/-- The two top-level fault kinds (R220). -/
inductive FaultKind where
  | decodeError
  | runtimeError
deriving DecidableEq, Repr

/-- The kind a cause belongs to (R221, R222). -/
def Cause.kind : Cause → FaultKind
  | .unknownOpcode | .illegalMode => .decodeError
  | .invalidRegister | .protectedRegister | .stackOverflow | .stackUnderflow | .invalidJumpTarget | .programTooLarge
  | .internalInvariant => .runtimeError

/-- The machine as the host has it (R250): right after reset with no start yet, or started, with the state it has come to.
That a start has happened is the host side's knowledge and no part of the machine's state tuple (log entry 24). -/
inductive Port where
  | ready
  | started (s : State)
deriving DecidableEq, Repr

/-- The state of the machine behind the interface: every field at its reset value until it is started (R39). -/
def Port.state (c : Config) : Port → State
  | .ready => State.resetOf c
  | .started s => s

/-- The host's `reset`: any time (R240, R250). -/
def hostReset (_ : Port) : Port := .ready

/-- The host's `start(words)`: once, right after reset; decode, load, and the loop runs (R120, R250). `none`: not allowed,
no such transition (R243). -/
def hostStart (c : Config) (ws : List Word) : Port → Option Port
  | .ready => some (.started (loadWords c ws (State.resetOf c)))
  | .started _ => none

/-- A step of the machine behind the interface. A run begun with no load is a run of the empty program (R243), and it too
is a started one. -/
def hostStep (c : Config) (p : Port) : Host.Outcome Port Fault Refusal :=
  match stepWith c (p.state c) with
  | .next s => .next (.started s)
  | .fault r => .fault r
  | .refused r => .refused r

/-- `RunMachine(words)` of R120 up to the first pass of its loop, under the default parameters: reset, decode, load. -/
def bootWords (ws : List Word) : State := loadWords .standard ws State.reset

/-- What the core reports to the host at the end of a run (R250). -/
inductive Done where
  | halted
  | faulted (cause : Cause) (index : Nat)
deriving DecidableEq, Repr

/-- `done`: nothing while the machine runs, one report when it has ended (R250, R251). -/
def doneReport (s : State) : Option Done :=
  match s.run, s.fault with
  | .running, _ => none
  | .halted, _ => some .halted
  | .faulted, some f => some (.faulted f.cause f.index)
  | .faulted, none => none

/-- The content of the register or flag with an identifier; one out of range is refused (R250). -/
def peekSlot (c : Config) (id : Byte) (s : State) : Option Byte := (slotOf c id).map s.read

/-- The host's `peek(id)`: only after reset before start, or when the run is over (R250). -/
def hostPeek (c : Config) (id : Byte) : Port → Option Byte
  | .ready => peekSlot c id (State.resetOf c)
  | .started s => if s.run = .running then none else peekSlot c id s

end Sys2Proof.Machine
end

