-- ==== Sys2Proof/Safety.lean ====
section
/-! DEFINITION. The terms claims are made in: the invariant of the machine, when a run is over and when it has failed, and
what an instruction leaves unchanged. -/

namespace Sys2Proof.Machine

/-- The run is over (R251). -/
def State.over (s : State) : Prop := s.run ≠ .running

/-- The run has not failed (R229: a Faulted state is terminal). -/
def State.safe (s : State) : Prop := s.run ≠ .faulted

/-- What every state of a run satisfies: the stack list and the list of slots without a name are canonical; the program
store holds at most 255 records, each in a mode its opcode accepts (R31, R95); every entry of the print channel is a
signed byte (R33); the fault record is filled exactly in Faulted (R32) and never with the unreachable InternalInvariant
(R238); and a Halted machine has PC at or past the program's end (R251). -/
structure State.Inv (s : State) : Prop where
  stack_wf : Memory.wf s.stack = true
  spare_wf : Memory.wf s.spare = true
  prog_len : s.len ≤ Config.maxProg
  prog_wf : ∀ i ∈ s.prog, i.wf = true
  out_range : ∀ v ∈ s.out, -128 ≤ v ∧ v ≤ 127
  fault_iff : s.fault.isSome = true ↔ s.run = .faulted
  no_missing_slot : ∀ f, s.fault = some f → f.cause ≠ .internalInvariant
  halted_past_end : s.run = .halted → s.len ≤ s.pc.toNat

/-- Operand byte `b` in mode `m` denotes the value `v` under the default parameters: the content of the register `b`
names in RR and SR, `b` itself in RI and SI (R92 to R94, R121). -/
def Reads (m : Mode) (b : Byte) (s : State) (v : Byte) : Prop :=
  ((m = .rr ∨ m = .sr) ∧ ∃ r, b = regValue r ∧ v = s.get r) ∨ ((m = .ri ∨ m = .si) ∧ v = b)

/-- The same under a configuration: the slot `b` names there (R28). -/
def ReadsWith (c : Config) (m : Mode) (b : Byte) (s : State) (v : Byte) : Prop :=
  ((m = .rr ∨ m = .sr) ∧ ∃ d, slotOf c b = some d ∧ v = s.read d) ∨ ((m = .ri ∨ m = .si) ∧ v = b)

/-- Operand byte `b` in mode `m` does not name a register that does not exist (R28, R93). -/
def OperandOk (m : Mode) (b : Byte) : Prop := m = .ri ∨ m = .si ∨ b.toNat < 9

/-- The state fault entry with cause `k` leaves (R226): the record holds the cause and the PC, nothing else changes. -/
def State.atFault (s : State) (k : Cause) : State :=
  { s with run := .faulted, fault := some { cause := k, index := s.pc.toNat } }

/-- Every slot but those listed reads as before, the slots without a name too. -/
def SameSlotsExcept (rs : List Reg) (s t : State) : Prop := (∀ r, r ∉ rs → t.get r = s.get r) ∧ t.spare = s.spare

/-- The three flags are as before. -/
def SameFlags (s t : State) : Prop := t.zf = s.zf ∧ t.cf = s.cf ∧ t.of = s.of

/-- Every stack cell reads as before. -/
def SameStack (s t : State) : Prop := ∀ a : Byte, memRead a t = memRead a s

/-- Program store, run state and fault record are as before: the run goes on. -/
def SameRun (s t : State) : Prop := t.prog = s.prog ∧ t.run = s.run ∧ t.fault = s.fault

/-- What the slots hold after a step that wrote `v` to slot `d` and returned Next (R38): `d` holds `v` and PC is one more
than before, or, where `d` is PC, PC is one past `v`. -/
def WroteThenNext (d : Reg) (v : Byte) (s t : State) : Prop :=
  (d = .pc → t.pc = v + 1) ∧ (d ≠ .pc → t.get d = v ∧ t.pc = s.pc + 1)

/-- Push the values of a list in order (R192 "pushing N values"). -/
def pushAll : List Byte → State → Except Cause State
  | [], s => .ok s
  | v :: vs, s =>
    match stackPush v s with
    | .error k => .error k
    | .ok t => pushAll vs t

/-- Pop `n` values, the first popped first in the list (R192 "then popping N values"). -/
def popAll : Nat → State → Except Cause (List Byte × State)
  | 0, s => .ok ([], s)
  | n + 1, s =>
    match stackPop s with
    | .error k => .error k
    | .ok (v, t) =>
      match popAll n t with
      | .error k => .error k
      | .ok (vs, u) => .ok (v :: vs, u)

end Sys2Proof.Machine
end

