-- ==== Sys2Proof/Certificates/Slice0/Obligations.lean ====
section
/-! DEFINITION. The statements for the provers. Each docstring names the rule of spec/ it formalises; where a clause rests
on a decision the spec marks as its own, the docstring names the log entry. Operands are given as in the spec: a register
operand as the identifier `regValue r` of a slot `r`, an immediate as a byte; `Reads m b s v` says that operand byte `b` in
mode `m` denotes `v`. A statement over a configuration `c` holds for every value of the parameters of R7 that the spec
decides for itself; `exec` and `step` are `execWith` and `stepWith` under the spec's defaults (`StepRunsTheRecordAtPc`). -/

open Sys2Proof Sys2Proof.Machine

/-! ### Reset, load and the host's side -/

/-- R39, R240, R241: what reset leaves, for every stack contents. The stack contents themselves are open (D8); that
`State.reset` takes them all zero is the model's choice, log entry 8. A slot without a name (none under the default `NREG`,
log entry 3) is zeroed too. -/
def Obligations.ResetLeavesTheListedValues : Prop :=
  (∀ stack : Memory,
    (State.resetWith stack).r0 = 0 ∧ (State.resetWith stack).r1 = 0 ∧ (State.resetWith stack).r2 = 0 ∧
    (State.resetWith stack).pc = 0 ∧ (State.resetWith stack).sp = 255 ∧ (State.resetWith stack).bp = 255 ∧
    (State.resetWith stack).zf = false ∧ (State.resetWith stack).cf = false ∧ (State.resetWith stack).of = false ∧
    (∀ id : Byte, (State.resetWith stack).read (.spare id) = 0) ∧
    (State.resetWith stack).stack = stack ∧ (State.resetWith stack).prog = [] ∧ (State.resetWith stack).len = 0 ∧
    (State.resetWith stack).run = .running ∧ (State.resetWith stack).fault = none ∧ (State.resetWith stack).out = []) ∧
  (∀ a : Byte, memRead a State.reset = 0) ∧
  (∀ (c : Config) (p : Port), (hostReset p).state c = State.resetWith c.stackInit) ∧
  State.resetOf Config.standard = State.reset

/-- R39 with the invariant of the model: it holds right after reset, whatever canonical stack contents reset leaves. -/
def Obligations.ResetSatisfiesTheInvariant : Prop :=
  ∀ stack : Memory, Memory.wf stack = true → (State.resetWith stack).Inv

/-- R120, R122, R222: under every configuration a stream of words that all decode (the words of well-formed records) loads
when it has at most 255 words, and the machine is then as reset left it but for the program store; a longer one ends in
ProgramTooLarge with nothing loaded. That its index is 0 is the spec's decision D19, log entry 16; that the reserved byte
may hold anything is D5, log entry 5. -/
def Obligations.LoadTakesAtMost255Records : Prop :=
  ∀ (c : Config) (rsvd : Byte) (recs : List Instr), c.enc.Injective → (∀ i ∈ recs, i.wf = true) →
    (recs.length ≤ 255 →
      hostStart c (recs.map (encodeWith c.enc rsvd)) .ready = some (.started { State.resetOf c with prog := recs })) ∧
    (255 < recs.length →
      hostStart c (recs.map (encodeWith c.enc rsvd)) .ready =
        some (.started
          { State.resetOf c with run := .faulted, fault := some { cause := .programTooLarge, index := 0 } }))

/-- R120, R221, R225: under every configuration the first word that does not decode is the one reported, with its index,
whatever follows it and however long the stream is; nothing is loaded and nothing has run. That the lowest index is the one
reported is the spec's decision D20, log entry 16. -/
def Obligations.FirstUndecodableWordIsReported : Prop :=
  ∀ (c : Config) (recs : List Instr) (w : Word) (k : DecodeCause) (rest : List Word),
    c.enc.Injective → (∀ i ∈ recs, i.wf = true) → decodeWith c.enc w = .error k →
    hostStart c (recs.map (encodeWith c.enc 0) ++ w :: rest) .ready =
      some (.started { State.resetOf c with
        run := .faulted
        fault := some
          { cause := match k with
              | .unknownOpcode => .unknownOpcode
              | .illegalMode => .illegalMode
            index := recs.length } })

/-- R243, R250 (the spec's decisions D13 and D15, log entries 12 and 24): the host can start a machine once, right after
reset, and only then. A start, of the empty program too, and a step each leave a machine that has no start until the next
reset, which is always possible; so has one in which a record is loaded, PC has moved or the run is over. -/
def Obligations.StartIsAllowedOnlyRightAfterReset : Prop :=
  ∀ (c : Config) (ws : List Word) (p q : Port),
    (hostStart c ws p ≠ none ↔ p = .ready) ∧
    (hostStart c ws p = some q → ∀ ws', hostStart c ws' q = none) ∧
    (hostStep c p = .next q → ∀ ws', hostStart c ws' q = none) ∧
    ((p.state c).prog ≠ [] ∨ (p.state c).pc ≠ 0 ∨ (p.state c).run ≠ .running → hostStart c ws p = none) ∧
    hostReset p = .ready

/-- R250, R251 (the spec's decisions D13, D23; log entry 24): one report at the end of a run, none while it goes on; and
the host reads a slot by its identifier after reset before start, or when the run is over, and never while a started
machine runs; an identifier that names no slot is refused. -/
def Obligations.HostSeesTheEndOfARunOnly : Prop :=
  ∀ (c : Config) (s : State), c.Ok →
    (s.run = .running → doneReport s = none) ∧
    (s.run = .halted → doneReport s = some .halted) ∧
    (∀ k n, s.run = .faulted → s.fault = some { cause := k, index := n } → doneReport s = some (.faulted k n)) ∧
    (∀ r, hostPeek c (c.enc.regid r) .ready = some ((State.resetWith c.stackInit).get r)) ∧
    (s.run ≠ .running → ∀ r, hostPeek c (c.enc.regid r) (.started s) = some (s.get r)) ∧
    (∀ (id : Byte) (p : Port), c.nreg ≤ id.toNat → hostPeek c id p = none) ∧
    (s.run = .running → ∀ id, hostPeek c id (.started s) = none)

/-! ### The dispatch loop -/

/-- R123: the record in the program store at PC is the one a step of a running machine executes, under every configuration;
`exec` and `step` are the case of the default configuration (R7). -/
def Obligations.StepRunsTheRecordAtPc : Prop :=
  (∀ (s : State) (i : Instr), s.run = .running → s.prog[s.pc.toNat]? = some i → step s = exec i s) ∧
  (∀ (c : Config) (s : State) (i : Instr), s.run = .running → s.prog[s.pc.toNat]? = some i →
    stepWith c s = execWith c i s) ∧
  (∀ (i : Instr) (s : State), execWith Config.standard i s = exec i s) ∧
  (∀ s : State, stepWith Config.standard s = step s)

/-- R72, R96, R120, R123: in a machine that was started with a stream of words, under every configuration and at any later
point of the run (any state with that program still in its store, which no step changes), a step at PC = k runs the record
the decoder reads from the k-th word. -/
def Obligations.StepRunsTheDecodedWord : Prop :=
  ∀ (c : Config) (ws : List Word) (s t : State) (w : Word) (i : Instr),
    hostStart c ws .ready = some (.started s) → s.run = .running →
    t.prog = s.prog → t.run = .running → ws[t.pc.toNat]? = some w → decodeWith c.enc w = .ok i →
    stepWith c t = execWith c i t ∧ step t = exec i t

/-- R123, R130, R251: a failed halt test halts the machine and changes nothing else. -/
def Obligations.PcAtOrPastTheEndHalts : Prop :=
  ∀ s : State, s.run = .running → s.prog.length ≤ s.pc.toNat → step s = .next { s with run := .halted }

/-- R130, R228: no transition leaves Halted or Faulted. That a step there answers the same state, and not no state, is the
model's choice, log entry 18. -/
def Obligations.FinalStatesStayAsTheyAre : Prop :=
  ∀ s : State, s.run ≠ .running → step s = .next s

/-- R241, R243: a machine started with the empty program, and one that runs with no start, halts at once, all other state
at its reset value. -/
def Obligations.EmptyProgramHaltsAtOnce : Prop :=
  ∀ c : Config, hostStart c [] .ready = some (.started (State.resetWith c.stackInit)) ∧
    step (State.resetWith c.stackInit) = .next { State.resetWith c.stackInit with run := .halted } ∧
    stepWith c (State.resetWith c.stackInit) = .next { State.resetWith c.stackInit with run := .halted } ∧
    hostStep c .ready = .next (.started { State.resetWith c.stackInit with run := .halted })

/-- R123, R130 "Running goes to Halted when a loop test finds `x[PC] ≥ len`": the run states a step leads to, from any state
and under every configuration. -/
def Obligations.HaltedIsReachedOnlyByTheBoundTest : Prop :=
  ∀ (c : Config) (s t : State), stepWith c s = .next t →
    (t.run = .halted ↔ s.run = .halted ∨ (s.run = .running ∧ s.prog.length ≤ s.pc.toNat)) ∧
    (t.run = .running → s.run = .running) ∧
    (t.run = .faulted → s.run = .faulted ∨ (s.run = .running ∧ s.pc.toNat < s.prog.length))

/-- R72: no step writes the program store, under any configuration. -/
def Obligations.ProgramStoreNeverChanges : Prop :=
  ∀ (c : Config) (s t : State), stepWith c s = .next t → t.prog = s.prog ∧ t.len = s.len

/-- The invariant of the model (`State.Inv`: canonical stack R30, at most 255 well-formed records R31 R132, signed bytes in
the print channel R33, a fault record exactly in Faulted R32, never InternalInvariant R238, Halted only at or past the end
R251) is kept by every step, under every configuration. -/
def Obligations.EveryStepKeepsTheInvariant : Prop :=
  (∀ (c : Config) (s t : State), s.Inv → stepWith c s = .next t → t.Inv) ∧
  (∀ s t : State, s.Inv → step s = .next t → t.Inv)

/-- R123, R133, R238: from a state of the invariant a step always has a next state: no stop of the model is ever met. That a
Halted or Faulted machine has a next state too, its own, is the model's choice, log entry 18. Under another configuration
the one stop there can be is the refused increment at 255 (`PC_WRAP`, the spec's decision D7, log entry 7). -/
def Obligations.EveryStepOfTheInvariantHasANextState : Prop :=
  (∀ s : State, s.Inv → ∃ t, step s = .next t) ∧
  (∀ (c : Config) (s : State), s.Inv →
    (∃ t, stepWith c s = .next t) ∨ (c.pcWrap = .refuse ∧ stepWith c s = .refused .pcWouldWrap))

/-! ### Faults -/

/-- R226, R227, R228, R129, R222: when a step of a running machine faults, the record holds the PC of the instruction, PC
stays there, and registers, flags, stack, program and print channel are as they were, but for SP when the instruction is a
POP that found the stack not empty: its destination is then no writable register, and the pop's increment stays (the spec's
decision D16, log entry 13). The cause is one an instruction can raise. -/
def Obligations.FaultsArePreciseAndKeepNothingButPop : Prop :=
  ∀ s t : State, s.run = .running → step s = .next t → t.run = .faulted →
    ∃ i, s.prog[s.pc.toNat]? = some i ∧ i.wf = true ∧ t.pc = s.pc ∧
      (∃ k, t.fault = some { cause := k, index := s.pc.toNat } ∧
        (k = .invalidRegister ∨ k = .protectedRegister ∨ k = .stackOverflow ∨ k = .stackUnderflow ∨
          k = .invalidJumpTarget)) ∧
      SameSlotsExcept [.sp] s t ∧ t.stack = s.stack ∧ t.prog = s.prog ∧ t.out = s.out ∧
      (i.opcode = .pop → s.sp ≠ 255 →
        t.sp = s.sp + 1 ∧ (9 ≤ i.dest.toNat ∨ 6 ≤ i.dest.toNat ∧ i.dest.toNat ≤ 8)) ∧
      (i.opcode ≠ .pop ∨ s.sp = 255 → t.sp = s.sp)

/-- R222's table: which instructions can raise which cause, and when. The name ProtectedRegister is the spec's decision D6,
log entry 6; that POP raises underflow before it looks at its destination is D16, log entry 13. -/
def Obligations.EachCauseComesFromItsInstructions : Prop :=
  ∀ (s t : State) (i : Instr) (k : Cause) (n : Nat),
    s.run = .running → s.prog[s.pc.toNat]? = some i → step s = .next t → t.run = .faulted →
    t.fault = some { cause := k, index := n } →
    (k = .protectedRegister → i.opcode ∈ [Opcode.mov, .add, .sub, .mul, .pop] ∧ 6 ≤ i.dest.toNat ∧ i.dest.toNat ≤ 8) ∧
    (k = .stackOverflow → i.opcode = .push ∧ s.sp = 0) ∧
    (k = .stackUnderflow → i.opcode = .pop ∧ s.sp = 255) ∧
    (k = .invalidJumpTarget → i.opcode ∈ [Opcode.jmp, .be, .bne] ∧
      ∃ v, Reads i.mode i.dest s v ∧ s.prog.length ≤ v.toNat) ∧
    (k = .invalidRegister → (i.mode ≠ .si ∧ 9 ≤ i.dest.toNat) ∨ (i.mode = .rr ∧ 9 ≤ i.src.toNat)) ∧
    (i.opcode = .be → s.zf = true) ∧ (i.opcode = .bne → s.zf = false) ∧
    (i.opcode = .pop → k ≠ .stackUnderflow → s.sp ≠ 255) ∧
    k ∈ [Cause.invalidRegister, .protectedRegister, .stackOverflow, .stackUnderflow, .invalidJumpTarget]

/-- R132, U6: a record in a mode its opcode does not accept has no meaning, under any configuration; the model refuses it by
name (log entry 20). -/
def Obligations.IllFormedRecordsAreRefused : Prop :=
  ∀ (c : Config) (i : Instr) (s : State), i.wf = false →
    execWith c i s = .refused .illFormedRecord ∧ exec i s = .refused .illFormedRecord

/-! ### Shared operations -/

/-- R29: the three register accessors, under every configuration: range check against `NREG`, then flag protection, then the
plain write; the flag write writes all three flags. Choices of the spec or the model: nine slots with the identifiers 0
to 8, and plain storage zeroed by reset for a slot without a name (D3, log entry 3); ProtectedRegister, or an ignored write
where `FLAG_WRITE` says so (D6, log entry 6); the plain write of PC, SP and BP (D17, log entry 14); a flag reads as 0 or 1
(D9, log entry 9); the whole byte is the identifier (D28, log entry 21). -/
def Obligations.RegisterAccessorsCheckAndWrite : Prop :=
  (∀ (c : Config) (id v : Byte) (s : State), c.nreg ≤ id.toNat →
    regRead c id s = .error .invalidRegister ∧ regWrite c id v s = .error .invalidRegister) ∧
  (∀ (c : Config) (r : Reg) (v : Byte) (s : State), c.Ok → regRead c (c.enc.regid r) s = .ok (s.get r) ∧
    (r = .zf ∨ r = .cf ∨ r = .of →
      (c.flagWrite = .fault → regWrite c (c.enc.regid r) v s = .error .protectedRegister) ∧
      (c.flagWrite = .ignore → regWrite c (c.enc.regid r) v s = .ok s)) ∧
    (r ≠ .zf → r ≠ .cf → r ≠ .of → ∃ t, regWrite c (c.enc.regid r) v s = .ok t ∧ t.get r = v ∧
      SameSlotsExcept [r] s t ∧ t.stack = s.stack ∧ SameRun s t ∧ t.out = s.out)) ∧
  (∀ (c : Config) (id v : Byte) (s : State), id.toNat < c.nreg → (∀ r, id ≠ c.enc.regid r) →
    Memory.wf s.spare = true →
    ∃ t, regWrite c id v s = .ok t ∧ regRead c id t = .ok v ∧
      (∀ id', id' ≠ id → regRead c id' t = regRead c id' s) ∧ t = { s with spare := t.spare }) ∧
  (∀ (z c o : Bool) (s : State), (flagWrite z c o s).get .zf = (if z then 1 else 0) ∧
    (flagWrite z c o s).get .cf = (if c then 1 else 0) ∧ (flagWrite z c o s).get .of = (if o then 1 else 0) ∧
    SameSlotsExcept [.zf, .cf, .of] s (flagWrite z c o s) ∧ (flagWrite z c o s).stack = s.stack ∧
    SameRun s (flagWrite z c o s) ∧ (flagWrite z c o s).out = s.out) ∧
  Config.standard.Ok ∧ Config.standard.nreg = 9 ∧ Config.standard.flagWrite = .fault ∧
  (∀ id : Byte, id.toNat < 9 → ∃ r, id = Config.standard.enc.regid r)

/-- R121: the resolver's contract, whole: a register's content in RR and SR (InvalidRegister out of range), the byte itself
in RI and SI; under the default parameters (nine identifiers, D3, log entry 3), and under any in terms of `RegRead`. -/
def Obligations.ResolverTellsRegisterFromLiteral : Prop :=
  ∀ (b : Byte) (s : State),
    (∀ m, m = Mode.rr ∨ m = Mode.sr → (9 ≤ b.toNat → resolve .standard m b s = .error .invalidRegister) ∧
      (∀ r, b = regValue r → resolve .standard m b s = .ok (s.get r)) ∧ (b.toNat < 9 → ∃ r, b = regValue r)) ∧
    (∀ c m, m = Mode.rr ∨ m = Mode.sr → resolve c m b s = regRead c b s) ∧
    (∀ c m, m = Mode.ri ∨ m = Mode.si → resolve c m b s = .ok b)

/-- R61: the checked stack operations, whole: overflow at SP = 0 and underflow at SP = 255 with nothing changed; a push
writes the new top only, a pop reads the old top and writes no cell; neither touches BP, the flags or anything else. -/
def Obligations.StackOperationsCheckThenMove : Prop :=
  ∀ (v : Byte) (s : State), Memory.wf s.stack = true →
    (s.sp = 0 → stackPush v s = .error .stackOverflow) ∧
    (s.sp ≠ 0 → ∃ t, stackPush v s = .ok t ∧ t.sp = s.sp - 1 ∧ memRead t.sp t = v ∧
      (∀ a, a ≠ t.sp → memRead a t = memRead a s) ∧ SameSlotsExcept [.sp] s t ∧ SameRun s t ∧ t.out = s.out) ∧
    (s.sp = 255 → stackPop s = .error .stackUnderflow) ∧
    (s.sp ≠ 255 → ∃ t, stackPop s = .ok (memRead s.sp s, t) ∧ t.sp = s.sp + 1 ∧ SameStack s t ∧
      SameSlotsExcept [.sp] s t ∧ SameRun s t ∧ t.out = s.out)

/-- R74: a cell written reads back, every other cell reads as before, and the write keeps the canonical form of the
memory. -/
def Obligations.CellWrittenReadsBack : Prop :=
  ∀ (a v : Byte) (s : State), Memory.wf s.stack = true →
    memRead a (memWrite a v s) = v ∧ (∀ b, b ≠ a → memRead b (memWrite a v s) = memRead b s) ∧
    Memory.wf (memWrite a v s).stack = true

/-- R125, R126: the two PC writers of the loop and the transfers. The checked jump refuses a target at or past the program's
end and otherwise sets PC alone; the increment is modulo 256 and changes PC alone. What the loop does at 255 is the
parameter `PC_WRAP` (the spec's decision D7, log entry 7): the wrap, which is the default, or a refusal. -/
def Obligations.PcWritersCheckAndWrap : Prop :=
  ∀ (t : Byte) (s : State) (c : Config),
    (s.prog.length ≤ t.toNat → setPC t s = .error .invalidJumpTarget) ∧
    (t.toNat < s.prog.length → setPC t s = .ok { s with pc := t }) ∧
    (incrementPC s).pc.toNat = (s.pc.toNat + 1) % 256 ∧ incrementPC s = { s with pc := (incrementPC s).pc } ∧
    (s.pc ≠ 255 ∨ c.pcWrap = .wrap → advance c s = .next (incrementPC s)) ∧
    (s.pc = 255 → c.pcWrap = .refuse → advance c s = .refused .pcWouldWrap) ∧
    Config.standard.pcWrap = .wrap

/-- R127: the arithmetic flag convention. -/
def Obligations.UpdateFlagsSetsZeroFromTheResult : Prop :=
  ∀ (r : Byte) (c o : Bool) (s : State),
    updateFlags r c o s = { s with zf := decide (r.toNat = 0), cf := c, of := o }

/-- R128: the compare flag convention, the sign of the difference; exactly one of the three flags is set. -/
def Obligations.UpdateCmpFlagsSetsTheSign : Prop :=
  ∀ (d : Int) (s : State),
    ((updateCmpFlags d s).zf = true ↔ d = 0) ∧ ((updateCmpFlags d s).cf = true ↔ 0 < d) ∧
    ((updateCmpFlags d s).of = true ↔ d < 0) ∧
    ((updateCmpFlags d s).zf.toNat + (updateCmpFlags d s).cf.toNat + (updateCmpFlags d s).of.toNat = 1) ∧
    SameSlotsExcept [.zf, .cf, .of] s (updateCmpFlags d s) ∧ (updateCmpFlags d s).stack = s.stack ∧
    SameRun s (updateCmpFlags d s) ∧ (updateCmpFlags d s).out = s.out

/-- R170, R174: ADD's result and flags against the 16-bit widened reference and against the bit-level forms, for all
operands. "Signed" is two's complement (the spec's decision D26, log entry 17). -/
def Obligations.AddAgreesWithTheWidenedReference : Prop :=
  ∀ a b : Byte,
    (aluAdd a b).result = (a.setWidth 16 + b.setWidth 16).setWidth 8 ∧
    (aluAdd a b).carry = decide (255 < (a.setWidth 16 + b.setWidth 16).toNat) ∧
    (aluAdd a b).overflow = (decide ((a.signExtend 16 + b.signExtend 16).toInt < -128) ||
      decide (127 < (a.signExtend 16 + b.signExtend 16).toInt)) ∧
    (aluAdd a b).carry = (a.setWidth 9 + b.setWidth 9).msb ∧
    (aluAdd a b).overflow = ((a ^^^ (aluAdd a b).result) &&& (b ^^^ (aluAdd a b).result)).msb

/-- R171, R174: SUB's result and flags against the widened reference and the bit-level forms, for all operands. "Signed" is
two's complement (the spec's decision D26, log entry 17). -/
def Obligations.SubAgreesWithTheWidenedReference : Prop :=
  ∀ a b : Byte,
    (aluSub a b).result = (a.setWidth 16 - b.setWidth 16).setWidth 8 ∧
    (aluSub a b).result = (a.signExtend 16 - b.signExtend 16).setWidth 8 ∧
    (aluSub a b).carry = a.ult b ∧
    (aluSub a b).overflow = (decide ((a.signExtend 16 - b.signExtend 16).toInt < -128) ||
      decide (127 < (a.signExtend 16 - b.signExtend 16).toInt)) ∧
    (aluSub a b).overflow = ((a ^^^ b) &&& (a ^^^ (aluSub a b).result)).msb

/-- R172: MUL's result and its one condition against the 16-bit product, for all operands. -/
def Obligations.MulAgreesWithTheWidenedReference : Prop :=
  ∀ a b : Byte,
    (aluMul a b).result = (a.setWidth 16 * b.setWidth 16).setWidth 8 ∧
    (aluMul a b).carry = decide (255 < (a.setWidth 16 * b.setWidth 16).toNat) ∧
    (aluMul a b).overflow = (aluMul a b).carry

/-! ### Instructions: what they do, and their frame -/

/-- R160: MOV copies its source to any register that is no flag, and changes nothing else but PC. That PC, SP and BP are
written so, and that where the destination is PC the loop's increment follows (R38), is the spec's decision D17, log
entry 14; that it goes from 255 to 0 is D7, log entry 7. -/
def Obligations.MovCopiesItsSource : Prop :=
  ∀ (m : Mode) (src v : Byte) (d : Reg) (s : State), m = .rr ∨ m = .ri → Reads m src s v → d.isFlag = false →
    ∃ t, exec (.mov m src (regValue d)) s = .next t ∧ WroteThenNext d v s t ∧ SameSlotsExcept [d, .pc] s t ∧
      SameFlags s t ∧ SameStack s t ∧ SameRun s t ∧ t.out = s.out

/-- R170: ADD writes the sum modulo 256 and the three flags. That PC, SP and BP are written so, and that where the
destination is PC the loop's increment follows (R38), is the spec's decision D17, log entry 14; that it goes from 255 to 0
is D7, log entry 7. -/
def Obligations.AddWritesTheSum : Prop :=
  ∀ (m : Mode) (src v : Byte) (d : Reg) (s : State), m = .rr ∨ m = .ri → Reads m src s v → d.isFlag = false →
    ∃ t, exec (.add m src (regValue d)) s = .next t ∧ WroteThenNext d (s.get d + v) s t ∧
      SameSlotsExcept [d, .pc, .zf, .cf, .of] s t ∧
      (t.zf = true ↔ ((s.get d).toNat + v.toNat) % 256 = 0) ∧
      (t.cf = true ↔ 255 < (s.get d).toNat + v.toNat) ∧
      (t.of = true ↔ (s.get d).toInt + v.toInt < -128 ∨ 127 < (s.get d).toInt + v.toInt) ∧
      SameStack s t ∧ SameRun s t ∧ t.out = s.out

/-- R171: SUB writes `dest − src` modulo 256 and the three flags, CF as a borrow. That the difference is written back is
the spec's reading D11, log entry 10. That PC, SP and BP are written so, and that where the destination is PC the loop's
increment follows (R38), is its decision D17, log entry 14; that it goes from 255 to 0 is D7, log entry 7. -/
def Obligations.SubWritesTheDifference : Prop :=
  ∀ (m : Mode) (src v : Byte) (d : Reg) (s : State), m = .rr ∨ m = .ri → Reads m src s v → d.isFlag = false →
    ∃ t, exec (.sub m src (regValue d)) s = .next t ∧ WroteThenNext d (s.get d - v) s t ∧
      SameSlotsExcept [d, .pc, .zf, .cf, .of] s t ∧
      (t.zf = true ↔ s.get d = v) ∧
      (t.cf = true ↔ (s.get d).toNat < v.toNat) ∧
      (t.of = true ↔ (s.get d).toInt - v.toInt < -128 ∨ 127 < (s.get d).toInt - v.toInt) ∧
      SameStack s t ∧ SameRun s t ∧ t.out = s.out

/-- R172: MUL writes the low byte of the unsigned product and the three flags, CF and OF by one condition. The write-back
is the spec's decision D10, log entry 10. That PC, SP and BP are written so, and that where the destination is PC the
loop's increment follows (R38), is its decision D17, log entry 14; that it goes from 255 to 0 is D7, log entry 7. -/
def Obligations.MulWritesTheLowProduct : Prop :=
  ∀ (m : Mode) (src v : Byte) (d : Reg) (s : State), m = .rr ∨ m = .ri → Reads m src s v → d.isFlag = false →
    ∃ t, exec (.mul m src (regValue d)) s = .next t ∧ WroteThenNext d (s.get d * v) s t ∧
      SameSlotsExcept [d, .pc, .zf, .cf, .of] s t ∧
      (t.zf = true ↔ (s.get d).toNat * v.toNat % 256 = 0) ∧
      (t.cf = true ↔ 255 < (s.get d).toNat * v.toNat) ∧ t.of = t.cf ∧
      SameStack s t ∧ SameRun s t ∧ t.out = s.out

/-- R180: CMP sets the flags from the signed comparison of any slot, a flag slot too, with its source, and changes nothing
else but PC. "Signed" is two's complement (the spec's decision D26, log entry 17). -/
def Obligations.CmpSetsTheFlagsOnly : Prop :=
  ∀ (m : Mode) (src v : Byte) (d : Reg) (s : State), m = .rr ∨ m = .ri → Reads m src s v →
    exec (.cmp m src (regValue d)) s = .next { s with
      zf := decide ((s.get d).toInt = v.toInt)
      cf := decide (v.toInt < (s.get d).toInt)
      of := decide ((s.get d).toInt < v.toInt)
      pc := s.pc + 1 }

/-- R190: PUSH stores its operand, read before SP moves, in the cell below SP, which becomes the top; whatever the `src`
byte holds. -/
def Obligations.PushStoresBelowTheTop : Prop :=
  ∀ (m : Mode) (src b v : Byte) (s : State), m = .sr ∨ m = .si → Reads m b s v → s.sp ≠ 0 →
    Memory.wf s.stack = true →
    ∃ t, exec (.push m src b) s = .next t ∧ t.sp = s.sp - 1 ∧ t.pc = s.pc + 1 ∧
      memRead (s.sp - 1) t = v ∧ (∀ a, a ≠ s.sp - 1 → memRead a t = memRead a s) ∧
      SameSlotsExcept [.sp, .pc] s t ∧ SameFlags s t ∧ SameRun s t ∧ t.out = s.out

/-- R191: POP loads the top into any register that is no flag and raises SP by one; where the destination is SP the popped
value wins, where it is PC the loop's increment follows (the spec's decision D17, log entry 14), from 255 to 0 (D7, log
entry 7). No cell changes. -/
def Obligations.PopLoadsTheTop : Prop :=
  ∀ (src : Byte) (d : Reg) (s : State), d.isFlag = false → s.sp ≠ 255 →
    ∃ t, exec (.pop .sr src (regValue d)) s = .next t ∧ WroteThenNext d (memRead s.sp s) s t ∧
      (d ≠ .sp → t.sp = s.sp + 1) ∧ SameSlotsExcept [d, .sp, .pc] s t ∧ SameFlags s t ∧ SameStack s t ∧ SameRun s t ∧
      t.out = s.out

/-- R200, R203, R245: JMP lands exactly on its target, below the program's end, and changes nothing else. -/
def Obligations.JmpLandsOnItsTarget : Prop :=
  ∀ (m : Mode) (src b v : Byte) (s : State), m = .sr ∨ m = .si → Reads m b s v → v.toNat < s.prog.length →
    exec (.jmp m src b) s = .next { s with pc := v }

/-- R201: BE lands on its target when ZF is set; when ZF is clear it goes on to the next instruction whatever its operand
byte holds. -/
def Obligations.BeFollowsTheZeroFlag : Prop :=
  ∀ (m : Mode) (src b v : Byte) (s : State), m = .sr ∨ m = .si →
    (s.zf = true → Reads m b s v → v.toNat < s.prog.length → exec (.be m src b) s = .next { s with pc := v }) ∧
    (s.zf = false → exec (.be m src b) s = .next { s with pc := s.pc + 1 })

/-- R202: BNE is BE's mirror on ZF being clear. -/
def Obligations.BneFollowsTheClearZeroFlag : Prop :=
  ∀ (m : Mode) (src b v : Byte) (s : State), m = .sr ∨ m = .si →
    (s.zf = false → Reads m b s v → v.toNat < s.prog.length → exec (.bne m src b) s = .next { s with pc := v }) ∧
    (s.zf = true → exec (.bne m src b) s = .next { s with pc := s.pc + 1 })

/-- R210, R33: PRINT appends the signed value of its operand to the print channel and changes nothing else but PC; the
entry is a signed byte. That the channel carries the value and not text is the spec's decision D18, log entry 15; "signed"
is two's complement (D26, log entry 17). -/
def Obligations.PrintAppendsTheSignedValue : Prop :=
  ∀ (m : Mode) (src b v : Byte) (s : State), m = .sr ∨ m = .si → Reads m b s v →
    exec (.print m src b) s = .next { s with out := s.out ++ [v.toInt], pc := s.pc + 1 } ∧
    v.toInt = (if v.toNat < 128 then (v.toNat : Int) else v.toNat - 256) ∧ -128 ≤ v.toInt ∧ v.toInt ≤ 127

/-! ### Instructions: where they fault, in the order of the checks -/

/-- R160, R225: MOV checks its source register, then its destination's range, then the flag protection; nothing has changed.
The order is the spec's decision D16, log entry 13, and ProtectedRegister its D6, log entry 6. -/
def Obligations.MovFaultsInOrder : Prop :=
  ∀ (m : Mode) (src dest : Byte) (s : State), m = .rr ∨ m = .ri →
    (m = .rr → 9 ≤ src.toNat → exec (.mov m src dest) s = .next (s.atFault .invalidRegister)) ∧
    (OperandOk m src → 9 ≤ dest.toNat → exec (.mov m src dest) s = .next (s.atFault .invalidRegister)) ∧
    (OperandOk m src → 6 ≤ dest.toNat → dest.toNat ≤ 8 →
      exec (.mov m src dest) s = .next (s.atFault .protectedRegister))

/-- R170, R171, R172, R225: ADD, SUB and MUL check the destination's range, then the source register, then the flag
protection; nothing has changed. The order is the spec's decision D16, log entry 13, and ProtectedRegister its D6, log
entry 6. -/
def Obligations.ArithmeticFaultsInOrder : Prop :=
  ∀ (i : Instr) (s : State), i.opcode = .add ∨ i.opcode = .sub ∨ i.opcode = .mul → i.mode = .rr ∨ i.mode = .ri →
    (9 ≤ i.dest.toNat → exec i s = .next (s.atFault .invalidRegister)) ∧
    (i.mode = .rr → 9 ≤ i.src.toNat → exec i s = .next (s.atFault .invalidRegister)) ∧
    (OperandOk i.mode i.src → 6 ≤ i.dest.toNat → i.dest.toNat ≤ 8 → exec i s = .next (s.atFault .protectedRegister))

/-- R180, R210, R225: CMP and PRINT fault only on a register id out of range: the flags are left as they were and nothing is
emitted. -/
def Obligations.CmpAndPrintFaultOnABadRegister : Prop :=
  ∀ (m : Mode) (src dest : Byte) (s : State),
    (m = .rr ∨ m = .ri → 9 ≤ dest.toNat → exec (.cmp m src dest) s = .next (s.atFault .invalidRegister)) ∧
    (m = .rr → 9 ≤ src.toNat → exec (.cmp m src dest) s = .next (s.atFault .invalidRegister)) ∧
    (m = .sr → 9 ≤ dest.toNat → exec (.print m src dest) s = .next (s.atFault .invalidRegister))

/-- R190, R225: PUSH resolves its operand first, then tests for overflow; nothing has changed. The order is the spec's
decision D16, log entry 13. -/
def Obligations.PushFaultsInOrder : Prop :=
  ∀ (m : Mode) (src b : Byte) (s : State), m = .sr ∨ m = .si →
    (m = .sr → 9 ≤ b.toNat → exec (.push m src b) s = .next (s.atFault .invalidRegister)) ∧
    (OperandOk m b → s.sp = 0 → exec (.push m src b) s = .next (s.atFault .stackOverflow))

/-- R191, R225, R227: POP tests for underflow first, with nothing changed; on a bad destination SP has been incremented and
stays so (the spec's decisions D16 and D6, log entries 13 and 6). -/
def Obligations.PopFaultsInOrderAndKeepsItsIncrement : Prop :=
  ∀ (src dest : Byte) (s : State),
    (s.sp = 255 → exec (.pop .sr src dest) s = .next (s.atFault .stackUnderflow)) ∧
    (s.sp ≠ 255 → 9 ≤ dest.toNat →
      exec (.pop .sr src dest) s = .next (State.atFault { s with sp := s.sp + 1 } .invalidRegister)) ∧
    (s.sp ≠ 255 → 6 ≤ dest.toNat → dest.toNat ≤ 8 →
      exec (.pop .sr src dest) s = .next (State.atFault { s with sp := s.sp + 1 } .protectedRegister))

/-- R200, R201, R202, R225: a taken JMP, BE or BNE checks its operand register, then its target against the program's
length; PC still holds the instruction's own index. The order is the spec's decision D16, log entry 13. -/
def Obligations.TakenTransfersFaultInOrder : Prop :=
  ∀ (i : Instr) (v : Byte) (s : State),
    i.opcode = .jmp ∨ (i.opcode = .be ∧ s.zf = true) ∨ (i.opcode = .bne ∧ s.zf = false) →
    i.mode = .sr ∨ i.mode = .si →
    (i.mode = .sr → 9 ≤ i.dest.toNat → exec i s = .next (s.atFault .invalidRegister)) ∧
    (Reads i.mode i.dest s v → s.prog.length ≤ v.toNat → exec i s = .next (s.atFault .invalidJumpTarget))

/-! ### Whole-machine rules -/

/-- R27, R134: in any step, the flags change only by ADD, SUB, MUL and CMP. -/
def Obligations.FlagsChangeOnlyByArithmeticAndCompare : Prop :=
  ∀ s t : State, step s = .next t → ¬ SameFlags s t →
    ∃ i, s.prog[s.pc.toNat]? = some i ∧ i.opcode ∈ [Opcode.add, .sub, .mul, .cmp]

/-- R20's table, R22, R25, R192: in any step, R0, R1, R2 and BP change only as the named destination of MOV, ADD, SUB, MUL
or POP, and SP only so or by PUSH or POP. -/
def Obligations.RegistersChangeOnlyAsDestinations : Prop :=
  ∀ (s t : State) (r : Reg), step s = .next t → r ≠ .pc → r.isFlag = false → t.get r ≠ s.get r →
    ∃ i, s.prog[s.pc.toNat]? = some i ∧
      ((i.opcode ∈ [Opcode.mov, .add, .sub, .mul, .pop] ∧ i.dest = regValue r) ∨
        (r = .sp ∧ (i.opcode = .push ∨ i.opcode = .pop)))

/-- R30, R60, R62: in any step, a stack cell changes only by PUSH, and it is the cell just below SP. -/
def Obligations.CellsChangeOnlyByPush : Prop :=
  ∀ (s t : State) (a : Byte), Memory.wf s.stack = true → step s = .next t → memRead a t ≠ memRead a s →
    ∃ i, s.prog[s.pc.toNat]? = some i ∧ i.opcode = .push ∧ s.sp ≠ 0 ∧ a = s.sp - 1

/-- R33, R210, R227: in any step, the print channel keeps all it held, and grows, by one entry, only at a PRINT. -/
def Obligations.PrintChannelOnlyGrows : Prop :=
  ∀ s t : State, step s = .next t →
    t.out = s.out ∨
      ∃ i v, s.prog[s.pc.toNat]? = some i ∧ i.opcode = .print ∧ Reads i.mode i.dest s v ∧ t.out = s.out ++ [v.toInt]

/-- R124, R203, R245, R38: in any step of a running machine that executes an instruction and does not fault, a JMP or a
taken BE or BNE leaves PC at its operand's value, and any other instruction that does not name PC as its destination leaves
it one further. -/
def Obligations.OnlyTransfersLandWithoutIncrement : Prop :=
  ∀ (s t : State) (i : Instr), s.run = .running → s.prog[s.pc.toNat]? = some i → step s = .next t → t.run = .running →
    (i.opcode = .jmp ∨ (i.opcode = .be ∧ s.zf = true) ∨ (i.opcode = .bne ∧ s.zf = false) →
      Reads i.mode i.dest s t.pc ∧ t.pc.toNat < s.prog.length) ∧
    (¬ (i.opcode = .jmp ∨ (i.opcode = .be ∧ s.zf = true) ∨ (i.opcode = .bne ∧ s.zf = false)) →
      (i.opcode ∈ [Opcode.mov, .add, .sub, .mul, .pop] → i.dest ≠ regValue .pc) → t.pc = s.pc + 1)

/-- R62 (b) and (e): cell 255 is dead storage. No step writes it, and no step's outcome depends on it: a step from a state
that differs only in that cell answers a state that differs only in that cell. -/
def Obligations.TopCellIsNeverObserved : Prop :=
  ∀ (s t : State) (stack' : Memory), Memory.wf s.stack = true → Memory.wf stack' = true →
    (∀ a : Byte, a ≠ 255 → readCell stack' a.toNat = readCell s.stack a.toNat) → step s = .next t →
    memRead 255 t = memRead 255 s ∧
    ∃ stack'', step { s with stack := stack' } = .next { t with stack := stack'' } ∧
      (∀ a : Byte, a ≠ 255 → readCell stack'' a.toNat = readCell t.stack a.toNat) ∧
      readCell stack'' 255 = readCell stack' 255

/-- R192, R62 (d): pushing N values then popping N values returns them in reverse order and gives SP back, whenever there
is room for the N values. -/
def Obligations.PushesThenPopsReverse : Prop :=
  ∀ (vs : List Byte) (s : State), Memory.wf s.stack = true → vs.length ≤ s.sp.toNat →
    ∃ t u, pushAll vs s = .ok t ∧ t.sp.toNat = s.sp.toNat - vs.length ∧
      popAll vs.length t = .ok (vs.reverse, u) ∧ u.sp = s.sp

/-! ### The parameters -/

/-- R7, R9, R105, and the reading rules of spec/92_eei_decisions.md: where the parameters the spec decides for itself
matter, and that they matter nowhere else. (1) Under any two assignments of opcode and mode numbers that name things apart,
a start with the words of the same records leaves the same machine. (2) A record executes the same under two configurations
when its operand bytes name the same slots (or are the same immediates), provided that `PC_WRAP` and `FLAG_WRITE` agree, or
PC is not 255 and the instruction writes neither PC nor a flag slot through its destination. The defaults themselves are
D1, D2, D3, D6 and D7 (log entries 1, 2, 3, 6 and 7). -/
def Obligations.ParametersMatterOnlyInTheirOwnCases : Prop :=
  ∀ c c' : Config,
    (∀ (rsvd : Byte) (recs : List Instr), c.enc.Injective → c'.enc.Injective → c'.stackInit = c.stackInit →
      (∀ i ∈ recs, i.wf = true) →
      hostStart c (recs.map (encodeWith c.enc rsvd)) .ready = hostStart c' (recs.map (encodeWith c'.enc rsvd)) .ready) ∧
    (∀ (o : Opcode) (m : Mode) (src dest src' dest' : Byte) (s : State),
      (m = .rr → slotOf c src = slotOf c' src') → (m = .ri → src = src') →
      (m ≠ .si → slotOf c dest = slotOf c' dest') → (m = .si → dest = dest') →
      (c.pcWrap = c'.pcWrap ∧ c.flagWrite = c'.flagWrite) ∨
        (s.pc ≠ 255 ∧ (o ∈ [Opcode.mov, .add, .sub, .mul, .pop] →
          ∀ r, slotOf c dest = some (.named r) → r ≠ .pc ∧ r.isFlag = false)) →
      execWith c (registry o m src dest) s = execWith c' (registry o m src' dest') s)

/-! ### Encoding -/

/-- R90, R96, R97, R104: for every numeric assignment that names things apart, and every reserved byte, the decoder reads a
well-formed record back from its word, every operand byte with it. That the reserved byte is ignored whatever it holds is
the spec's decision D5, log entry 5. -/
def Obligations.DecodeOfEncodeIsTheRecord : Prop :=
  ∀ (E : Encoding) (rsvd : Byte) (i : Instr), E.Injective → i.wf = true → decodeWith E (encodeWith E rsvd i) = .ok i

/-- R90, R96, R107: whatever word the decoder accepts is the word of the record it answers (with the word's own reserved
byte), and that record is well formed: each accepted word has one meaning. That a word is accepted whatever its reserved
byte holds is the spec's decision D5, log entry 5. -/
def Obligations.EncodeOfDecodeIsTheWord : Prop :=
  ∀ (E : Encoding) (w : Word) (i : Instr), decodeWith E w = .ok i → i.wf = true ∧ encodeWith E (fieldReserved w) i = w

/-- R96: the two causes of a decode fault, in their order, for every assignment that names things apart: the opcode field
names no instruction, or it names one that does not accept the mode the mode field names. -/
def Obligations.DecodeFailsForItsTwoCausesOnly : Prop :=
  ∀ (E : Encoding) (w : Word), E.Injective →
    (decodeWith E w = .error .unknownOpcode ↔ ∀ o, E.opc o ≠ fieldOpcode w) ∧
    (decodeWith E w = .error .illegalMode ↔ ∃ o m, E.opc o = fieldOpcode w ∧ E.modev m = fieldMode w ∧ o.accepts m = false)

/-- R95: the mode acceptance table, with its 21 legal pairs, checked by the decoder under every assignment. What executing a
pair outside it does is `IllFormedRecordsAreRefused` (log entry 20). -/
def Obligations.ModeAcceptanceTable : Prop :=
  (∀ o, o = Opcode.mov ∨ o = Opcode.add ∨ o = Opcode.sub ∨ o = Opcode.mul ∨ o = Opcode.cmp →
    ∀ m, o.accepts m = true ↔ m = .rr ∨ m = .ri) ∧
  (∀ o, o = Opcode.push ∨ o = Opcode.jmp ∨ o = Opcode.be ∨ o = Opcode.bne ∨ o = Opcode.print →
    ∀ m, o.accepts m = true ↔ m = .sr ∨ m = .si) ∧
  (∀ m, Opcode.pop.accepts m = true ↔ m = .sr) ∧
  ((Opcode.all.flatMap fun o => Mode.all.filter fun m => o.accepts m).length = 21) ∧
  (∀ E w i, decodeWith E w = .ok i → i.opcode.accepts i.mode = true)

/-- R99, under the default values of R91 and R92 (the spec's decisions D1 and D2, log entries 1 and 2): of the 256 low
bytes 21 are legal, 23 have a known opcode in a mode it does not accept, 212 an unknown opcode. -/
def Obligations.LowByteClassesHaveTheStatedSizes : Prop :=
  ((List.range 256).filter fun n => (decode (BitVec.ofNat 32 n)).toOption.isSome) =
    [0x04, 0x05, 0x08, 0x09, 0x0C, 0x0D, 0x10, 0x11, 0x14, 0x15, 0x1A, 0x1B, 0x1E, 0x22, 0x23, 0x26, 0x27, 0x2A, 0x2B, 0x2E,
      0x2F] ∧
  ((List.range 256).filter fun n => decode (BitVec.ofNat 32 n) == .error .illegalMode).length = 23 ∧
  ((List.range 256).filter fun n => decode (BitVec.ofNat 32 n) == .error .unknownOpcode).length = 212

/-- R160 to R210, the example words of the eleven instructions, under the default values (D1, D2, D3, log entries 1
to 3). -/
def Obligations.ExampleWordsDecode : Prop :=
  decode 0x00050005 = .ok (.mov .ri 5 0) ∧ decode 0x00010004 = .ok (.mov .rr 1 0) ∧
  decode 0x00010008 = .ok (.add .rr 1 0) ∧ decode 0x0005000D = .ok (.sub .ri 5 0) ∧
  decode 0x01020010 = .ok (.mul .rr 2 1) ∧ decode 0x00010014 = .ok (.cmp .rr 1 0) ∧
  decode 0x0700001B = .ok (.push .si 0 7) ∧ decode 0x0100001E = .ok (.pop .sr 0 1) ∧
  decode 0x04000023 = .ok (.jmp .si 0 4) ∧ decode 0x04000027 = .ok (.be .si 0 4) ∧
  decode 0x0100002B = .ok (.bne .si 0 1) ∧ decode 0x0000002E = .ok (.print .sr 0 0)

/-- R66, R106, R237 (the byte order is the spec's decision D4, log entry 4): an image of words reads back as those words in
either order, and an image whose length is no multiple of 4 is the loader's error. -/
def Obligations.ImagesReadBackAsWords : Prop :=
  (∀ (o : WordOrder) (ws : List Word), imageWords o (wordsImage o ws) = .ok ws) ∧
  (∀ (o : WordOrder) (bytes : List Byte), bytes.length % 4 ≠ 0 → imageWords o bytes = .error .lengthNotMultipleOf4)
end

