-- ==== Sys2Proof/Laws/Encoding.lean ====
section
/-! SUPPORT. Field extraction from an assembled word (spec/30_encoding.md R90): each field of `dest ++ src ++ rsvd ++ opcode
++ mode` is the part that was put there, and a word is made of its fields; lookups under an injective assignment. -/

namespace Sys2Proof

/-- A word put together from its five fields (R90). -/
def joinFields (d s r : Byte) (o : BitVec 6) (m : BitVec 2) : Word := d ++ s ++ r ++ o ++ m

theorem joinFields_toNat (d s r : Byte) (o : BitVec 6) (m : BitVec 2) :
    (joinFields d s r o m).toNat = d.toNat * 2 ^ 24 + s.toNat * 2 ^ 16 + r.toNat * 2 ^ 8 + o.toNat * 4 + m.toNat := by
  have hs := s.isLt
  have hr := r.isLt
  have ho := o.isLt
  have hm := m.isLt
  simp only [joinFields, BitVec.toNat_append, Nat.shiftLeft_eq]
  rw [← Nat.shiftLeft_eq, ← Nat.shiftLeft_eq, ← Nat.shiftLeft_eq, ← Nat.shiftLeft_eq,
    ← Nat.shiftLeft_add_eq_or_of_lt hs, ← Nat.shiftLeft_add_eq_or_of_lt hr, ← Nat.shiftLeft_add_eq_or_of_lt ho,
    ← Nat.shiftLeft_add_eq_or_of_lt hm]
  simp only [Nat.shiftLeft_eq]
  omega

theorem extract_toNat (w : Word) (lo len : Nat) : (w.extractLsb' lo len).toNat = w.toNat / 2 ^ lo % 2 ^ len := by
  rw [BitVec.extractLsb'_toNat, Nat.shiftRight_eq_div_pow]

section
variable (d s r : Byte) (o : BitVec 6) (m : BitVec 2)

@[simp] theorem fieldDest_join : fieldDest (joinFields d s r o m) = d := by
  apply BitVec.eq_of_toNat_eq
  rw [fieldDest, extract_toNat, joinFields_toNat]
  have := d.isLt; have := s.isLt; have := r.isLt; have := o.isLt; have := m.isLt
  omega

@[simp] theorem fieldSrc_join : fieldSrc (joinFields d s r o m) = s := by
  apply BitVec.eq_of_toNat_eq
  rw [fieldSrc, extract_toNat, joinFields_toNat]
  have := d.isLt; have := s.isLt; have := r.isLt; have := o.isLt; have := m.isLt
  omega

@[simp] theorem fieldReserved_join : fieldReserved (joinFields d s r o m) = r := by
  apply BitVec.eq_of_toNat_eq
  rw [fieldReserved, extract_toNat, joinFields_toNat]
  have := d.isLt; have := s.isLt; have := r.isLt; have := o.isLt; have := m.isLt
  omega

@[simp] theorem fieldOpcode_join : fieldOpcode (joinFields d s r o m) = o := by
  apply BitVec.eq_of_toNat_eq
  rw [fieldOpcode, extract_toNat, joinFields_toNat]
  have := d.isLt; have := s.isLt; have := r.isLt; have := o.isLt; have := m.isLt
  omega

@[simp] theorem fieldMode_join : fieldMode (joinFields d s r o m) = m := by
  apply BitVec.eq_of_toNat_eq
  rw [fieldMode, extract_toNat, joinFields_toNat]
  have := d.isLt; have := s.isLt; have := r.isLt; have := o.isLt; have := m.isLt
  omega

end

/-- A word is the join of its fields. -/
theorem joinFields_fields (w : Word) :
    joinFields (fieldDest w) (fieldSrc w) (fieldReserved w) (fieldOpcode w) (fieldMode w) = w := by
  apply BitVec.eq_of_toNat_eq
  rw [joinFields_toNat, fieldDest, fieldSrc, fieldReserved, fieldOpcode, fieldMode]
  simp only [extract_toNat]
  have := w.isLt
  omega

/-- The encoder joins the record's fields. -/
theorem encodeWith_eq_join (E : Encoding) (rsvd : Byte) (i : Instr) :
    encodeWith E rsvd i = joinFields i.dest i.src rsvd (E.opc i.opcode) (E.modev i.mode) := rfl

/-! ### Lookups -/

theorem opcode_mem_all (o : Opcode) : o ∈ Opcode.all := by cases o <;> decide

theorem mode_mem_all (m : Mode) : m ∈ Mode.all := by cases m <;> decide

/-- A lookup answers only what has the value asked for. -/
theorem opcodeOf_some {E : Encoding} {f : BitVec 6} {o : Opcode} (h : opcodeOf E f = some o) : E.opc o = f := by
  simpa using List.find?_some h

theorem modeOf_some {E : Encoding} {f : BitVec 2} {m : Mode} (h : modeOf E f = some m) : E.modev m = f := by
  simpa using List.find?_some h

theorem opcodeOf_opc {E : Encoding} (h : E.Injective) (o : Opcode) : opcodeOf E (E.opc o) = some o := by
  cases hf : opcodeOf E (E.opc o) with
  | none => exact absurd (List.find?_eq_none.1 hf o (opcode_mem_all o)) (by simp)
  | some o' => rw [h.1 o' o (opcodeOf_some hf)]

theorem modeOf_modev {E : Encoding} (h : E.Injective) (m : Mode) : modeOf E (E.modev m) = some m := by
  cases hf : modeOf E (E.modev m) with
  | none => exact absurd (List.find?_eq_none.1 hf m (mode_mem_all m)) (by simp)
  | some m' => rw [h.2.1 m' m (modeOf_some hf)]

theorem standard_injective : Encoding.standard.Injective := by
  refine ⟨fun a b => ?_, fun a b => ?_, fun a b => ?_⟩ <;> cases a <;> cases b <;> decide

/-- The registry builds the record with the fields given. -/
theorem registry_fields (i : Instr) : registry i.opcode i.mode i.src i.dest = i := by cases i <;> rfl

@[simp] theorem registry_opcode (o : Opcode) (m : Mode) (s d : Byte) : (registry o m s d).opcode = o := by cases o <;> rfl

@[simp] theorem registry_mode (o : Opcode) (m : Mode) (s d : Byte) : (registry o m s d).mode = m := by cases o <;> rfl

@[simp] theorem registry_src (o : Opcode) (m : Mode) (s d : Byte) : (registry o m s d).src = s := by cases o <;> rfl

@[simp] theorem registry_dest (o : Opcode) (m : Mode) (s d : Byte) : (registry o m s d).dest = d := by cases o <;> rfl

/-! ### The program image -/

theorem wordOfBytes_bytesOfWord_little (w : Word) :
    wordOfBytes .little (w.extractLsb' 0 8) (w.extractLsb' 8 8) (w.extractLsb' 16 8) (w.extractLsb' 24 8) = w := by
  have h := joinFields_fields w
  apply BitVec.eq_of_toNat_eq
  have hw := w.isLt
  have h0 := (w.extractLsb' 0 8).isLt
  have h1 := (w.extractLsb' 8 8).isLt
  have h2 := (w.extractLsb' 16 8).isLt
  simp only [wordOfBytes, BitVec.toNat_append]
  rw [← Nat.shiftLeft_add_eq_or_of_lt h2, ← Nat.shiftLeft_add_eq_or_of_lt h1, ← Nat.shiftLeft_add_eq_or_of_lt h0]
  simp only [Nat.shiftLeft_eq, extract_toNat]
  omega

theorem wordOfBytes_bytesOfWord_big (w : Word) :
    wordOfBytes .big (w.extractLsb' 24 8) (w.extractLsb' 16 8) (w.extractLsb' 8 8) (w.extractLsb' 0 8) = w :=
  wordOfBytes_bytesOfWord_little w

end Sys2Proof
end

