-- ==== Sys2Proof/Laws/State.lean ====
section
/-! SUPPORT. What each update of the state does to each field, so that no proof unfolds a record update; and the raw read
of a slot after a raw write. -/

namespace Sys2Proof.Machine

variable (s : State)

/-! ### flagWrite -/

@[simp] theorem flagWrite_r0 (z c o : Bool) : (flagWrite z c o s).r0 = s.r0 := rfl
@[simp] theorem flagWrite_r1 (z c o : Bool) : (flagWrite z c o s).r1 = s.r1 := rfl
@[simp] theorem flagWrite_r2 (z c o : Bool) : (flagWrite z c o s).r2 = s.r2 := rfl
@[simp] theorem flagWrite_pc (z c o : Bool) : (flagWrite z c o s).pc = s.pc := rfl
@[simp] theorem flagWrite_sp (z c o : Bool) : (flagWrite z c o s).sp = s.sp := rfl
@[simp] theorem flagWrite_bp (z c o : Bool) : (flagWrite z c o s).bp = s.bp := rfl
@[simp] theorem flagWrite_zf (z c o : Bool) : (flagWrite z c o s).zf = z := rfl
@[simp] theorem flagWrite_cf (z c o : Bool) : (flagWrite z c o s).cf = c := rfl
@[simp] theorem flagWrite_of (z c o : Bool) : (flagWrite z c o s).of = o := rfl
@[simp] theorem flagWrite_spare (z c o : Bool) : (flagWrite z c o s).spare = s.spare := rfl
@[simp] theorem flagWrite_stack (z c o : Bool) : (flagWrite z c o s).stack = s.stack := rfl
@[simp] theorem flagWrite_prog (z c o : Bool) : (flagWrite z c o s).prog = s.prog := rfl
@[simp] theorem flagWrite_run (z c o : Bool) : (flagWrite z c o s).run = s.run := rfl
@[simp] theorem flagWrite_fault (z c o : Bool) : (flagWrite z c o s).fault = s.fault := rfl
@[simp] theorem flagWrite_out (z c o : Bool) : (flagWrite z c o s).out = s.out := rfl

/-! ### memWrite -/

@[simp] theorem memWrite_r0 (a v : Byte) : (memWrite a v s).r0 = s.r0 := rfl
@[simp] theorem memWrite_r1 (a v : Byte) : (memWrite a v s).r1 = s.r1 := rfl
@[simp] theorem memWrite_r2 (a v : Byte) : (memWrite a v s).r2 = s.r2 := rfl
@[simp] theorem memWrite_pc (a v : Byte) : (memWrite a v s).pc = s.pc := rfl
@[simp] theorem memWrite_sp (a v : Byte) : (memWrite a v s).sp = s.sp := rfl
@[simp] theorem memWrite_bp (a v : Byte) : (memWrite a v s).bp = s.bp := rfl
@[simp] theorem memWrite_zf (a v : Byte) : (memWrite a v s).zf = s.zf := rfl
@[simp] theorem memWrite_cf (a v : Byte) : (memWrite a v s).cf = s.cf := rfl
@[simp] theorem memWrite_of (a v : Byte) : (memWrite a v s).of = s.of := rfl
@[simp] theorem memWrite_spare (a v : Byte) : (memWrite a v s).spare = s.spare := rfl
@[simp] theorem memWrite_stack (a v : Byte) : (memWrite a v s).stack = writeCell s.stack a.toNat v := rfl
@[simp] theorem memWrite_prog (a v : Byte) : (memWrite a v s).prog = s.prog := rfl
@[simp] theorem memWrite_run (a v : Byte) : (memWrite a v s).run = s.run := rfl
@[simp] theorem memWrite_fault (a v : Byte) : (memWrite a v s).fault = s.fault := rfl
@[simp] theorem memWrite_out (a v : Byte) : (memWrite a v s).out = s.out := rfl

/-! ### emit -/

@[simp] theorem emit_r0 (v : Byte) : (emit v s).r0 = s.r0 := rfl
@[simp] theorem emit_r1 (v : Byte) : (emit v s).r1 = s.r1 := rfl
@[simp] theorem emit_r2 (v : Byte) : (emit v s).r2 = s.r2 := rfl
@[simp] theorem emit_pc (v : Byte) : (emit v s).pc = s.pc := rfl
@[simp] theorem emit_sp (v : Byte) : (emit v s).sp = s.sp := rfl
@[simp] theorem emit_bp (v : Byte) : (emit v s).bp = s.bp := rfl
@[simp] theorem emit_zf (v : Byte) : (emit v s).zf = s.zf := rfl
@[simp] theorem emit_cf (v : Byte) : (emit v s).cf = s.cf := rfl
@[simp] theorem emit_of (v : Byte) : (emit v s).of = s.of := rfl
@[simp] theorem emit_spare (v : Byte) : (emit v s).spare = s.spare := rfl
@[simp] theorem emit_stack (v : Byte) : (emit v s).stack = s.stack := rfl
@[simp] theorem emit_prog (v : Byte) : (emit v s).prog = s.prog := rfl
@[simp] theorem emit_run (v : Byte) : (emit v s).run = s.run := rfl
@[simp] theorem emit_fault (v : Byte) : (emit v s).fault = s.fault := rfl
@[simp] theorem emit_out (v : Byte) : (emit v s).out = s.out ++ [v.toInt] := rfl

/-! ### incrementPC -/

@[simp] theorem incrementPC_r0 : (incrementPC s).r0 = s.r0 := rfl
@[simp] theorem incrementPC_r1 : (incrementPC s).r1 = s.r1 := rfl
@[simp] theorem incrementPC_r2 : (incrementPC s).r2 = s.r2 := rfl
@[simp] theorem incrementPC_pc : (incrementPC s).pc = s.pc + 1 := rfl
@[simp] theorem incrementPC_sp : (incrementPC s).sp = s.sp := rfl
@[simp] theorem incrementPC_bp : (incrementPC s).bp = s.bp := rfl
@[simp] theorem incrementPC_zf : (incrementPC s).zf = s.zf := rfl
@[simp] theorem incrementPC_cf : (incrementPC s).cf = s.cf := rfl
@[simp] theorem incrementPC_of : (incrementPC s).of = s.of := rfl
@[simp] theorem incrementPC_spare : (incrementPC s).spare = s.spare := rfl
@[simp] theorem incrementPC_stack : (incrementPC s).stack = s.stack := rfl
@[simp] theorem incrementPC_prog : (incrementPC s).prog = s.prog := rfl
@[simp] theorem incrementPC_run : (incrementPC s).run = s.run := rfl
@[simp] theorem incrementPC_fault : (incrementPC s).fault = s.fault := rfl
@[simp] theorem incrementPC_out : (incrementPC s).out = s.out := rfl

/-! ### enterFault -/

@[simp] theorem enterFault_r0 (k : Cause) : (enterFault k s).r0 = s.r0 := rfl
@[simp] theorem enterFault_r1 (k : Cause) : (enterFault k s).r1 = s.r1 := rfl
@[simp] theorem enterFault_r2 (k : Cause) : (enterFault k s).r2 = s.r2 := rfl
@[simp] theorem enterFault_pc (k : Cause) : (enterFault k s).pc = s.pc := rfl
@[simp] theorem enterFault_sp (k : Cause) : (enterFault k s).sp = s.sp := rfl
@[simp] theorem enterFault_bp (k : Cause) : (enterFault k s).bp = s.bp := rfl
@[simp] theorem enterFault_zf (k : Cause) : (enterFault k s).zf = s.zf := rfl
@[simp] theorem enterFault_cf (k : Cause) : (enterFault k s).cf = s.cf := rfl
@[simp] theorem enterFault_of (k : Cause) : (enterFault k s).of = s.of := rfl
@[simp] theorem enterFault_spare (k : Cause) : (enterFault k s).spare = s.spare := rfl
@[simp] theorem enterFault_stack (k : Cause) : (enterFault k s).stack = s.stack := rfl
@[simp] theorem enterFault_prog (k : Cause) : (enterFault k s).prog = s.prog := rfl
@[simp] theorem enterFault_run (k : Cause) : (enterFault k s).run = .faulted := rfl
@[simp] theorem enterFault_fault (k : Cause) : (enterFault k s).fault = some { cause := k, index := s.pc.toNat } := rfl
@[simp] theorem enterFault_out (k : Cause) : (enterFault k s).out = s.out := rfl

/-! ### haltRun -/

@[simp] theorem haltRun_r0 : (haltRun s).r0 = s.r0 := rfl
@[simp] theorem haltRun_r1 : (haltRun s).r1 = s.r1 := rfl
@[simp] theorem haltRun_r2 : (haltRun s).r2 = s.r2 := rfl
@[simp] theorem haltRun_pc : (haltRun s).pc = s.pc := rfl
@[simp] theorem haltRun_sp : (haltRun s).sp = s.sp := rfl
@[simp] theorem haltRun_bp : (haltRun s).bp = s.bp := rfl
@[simp] theorem haltRun_zf : (haltRun s).zf = s.zf := rfl
@[simp] theorem haltRun_cf : (haltRun s).cf = s.cf := rfl
@[simp] theorem haltRun_of : (haltRun s).of = s.of := rfl
@[simp] theorem haltRun_spare : (haltRun s).spare = s.spare := rfl
@[simp] theorem haltRun_stack : (haltRun s).stack = s.stack := rfl
@[simp] theorem haltRun_prog : (haltRun s).prog = s.prog := rfl
@[simp] theorem haltRun_run : (haltRun s).run = .halted := rfl
@[simp] theorem haltRun_fault : (haltRun s).fault = s.fault := rfl
@[simp] theorem haltRun_out : (haltRun s).out = s.out := rfl

/-! ### The raw register write -/

@[simp] theorem set_zf (r : Reg) (v : Byte) : (s.set r v).zf = s.zf := by cases r <;> rfl
@[simp] theorem set_cf (r : Reg) (v : Byte) : (s.set r v).cf = s.cf := by cases r <;> rfl
@[simp] theorem set_of (r : Reg) (v : Byte) : (s.set r v).of = s.of := by cases r <;> rfl
@[simp] theorem set_spare (r : Reg) (v : Byte) : (s.set r v).spare = s.spare := by cases r <;> rfl
@[simp] theorem set_stack (r : Reg) (v : Byte) : (s.set r v).stack = s.stack := by cases r <;> rfl
@[simp] theorem set_prog (r : Reg) (v : Byte) : (s.set r v).prog = s.prog := by cases r <;> rfl
@[simp] theorem set_run (r : Reg) (v : Byte) : (s.set r v).run = s.run := by cases r <;> rfl
@[simp] theorem set_fault (r : Reg) (v : Byte) : (s.set r v).fault = s.fault := by cases r <;> rfl
@[simp] theorem set_out (r : Reg) (v : Byte) : (s.set r v).out = s.out := by cases r <;> rfl

theorem get_set_self (r : Reg) (v : Byte) (h : r.isFlag = false) : (s.set r v).get r = v := by
  cases r <;> first | rfl | cases h

theorem get_set_other (r r' : Reg) (v : Byte) (h : r' ≠ r) : (s.set r v).get r' = s.get r' := by
  cases r <;> cases r' <;> first | rfl | exact absurd rfl h

theorem set_pc_of_ne (r : Reg) (v : Byte) (h : r ≠ .pc) : (s.set r v).pc = s.pc := get_set_other s r .pc v h.symm

@[simp] theorem set_pc_self (v : Byte) : (s.set .pc v).pc = v := rfl

theorem set_sp_of_ne (r : Reg) (v : Byte) (h : r ≠ .sp) : (s.set r v).sp = s.sp := get_set_other s r .sp v h.symm

@[simp] theorem set_sp_self (v : Byte) : (s.set .sp v).sp = v := rfl

/-! ### The raw write of any slot -/

@[simp] theorem write_named (r : Reg) (v : Byte) : s.write (.named r) v = s.set r v := rfl
@[simp] theorem read_named (r : Reg) : s.read (.named r) = s.get r := rfl

@[simp] theorem write_zf (d : Slot) (v : Byte) : (s.write d v).zf = s.zf := by cases d <;> simp [State.write]
@[simp] theorem write_cf (d : Slot) (v : Byte) : (s.write d v).cf = s.cf := by cases d <;> simp [State.write]
@[simp] theorem write_of (d : Slot) (v : Byte) : (s.write d v).of = s.of := by cases d <;> simp [State.write]
@[simp] theorem write_stack (d : Slot) (v : Byte) : (s.write d v).stack = s.stack := by cases d <;> simp [State.write]
@[simp] theorem write_prog (d : Slot) (v : Byte) : (s.write d v).prog = s.prog := by cases d <;> simp [State.write]
@[simp] theorem write_run (d : Slot) (v : Byte) : (s.write d v).run = s.run := by cases d <;> simp [State.write]
@[simp] theorem write_fault (d : Slot) (v : Byte) : (s.write d v).fault = s.fault := by cases d <;> simp [State.write]
@[simp] theorem write_out (d : Slot) (v : Byte) : (s.write d v).out = s.out := by cases d <;> simp [State.write]

theorem get_write_spare (id v : Byte) (r : Reg) : (s.write (.spare id) v).get r = s.get r := by cases r <;> rfl

theorem write_pc_of_ne (d : Slot) (v : Byte) (h : d ≠ .named .pc) : (s.write d v).pc = s.pc := by
  cases d with
  | named r => exact set_pc_of_ne s r v fun e => h (by rw [e])
  | spare id => rfl

/-- A write that reaches a flag slot leaves the whole state as it is. -/
theorem write_flag (d : Slot) (v : Byte) (h : d.isFlag = true) : s.write d v = s := by
  cases d with
  | named r => cases r <;> first | rfl | cases h
  | spare id => cases h

/-! ### The raw register read after the other updates -/

@[simp] theorem get_memWrite (a v : Byte) (r : Reg) : (memWrite a v s).get r = s.get r := by cases r <;> rfl

@[simp] theorem get_emit (v : Byte) (r : Reg) : (emit v s).get r = s.get r := by cases r <;> rfl

@[simp] theorem get_enterFault (k : Cause) (r : Reg) : (enterFault k s).get r = s.get r := by cases r <;> rfl

@[simp] theorem get_haltRun (r : Reg) : (haltRun s).get r = s.get r := by cases r <;> rfl

theorem get_incrementPC (r : Reg) (h : r ≠ .pc) : (incrementPC s).get r = s.get r := by
  cases r <;> first | rfl | exact absurd rfl h

theorem get_flagWrite (z c o : Bool) (r : Reg) (h : r.isFlag = false) : (flagWrite z c o s).get r = s.get r := by
  cases r <;> first | rfl | cases h

/-! ### Length, program and stack reads -/

theorem len_eq_of_prog {s t : State} (h : t.prog = s.prog) : t.len = s.len := by simp only [State.len, h]

theorem memRead_of_stack {s t : State} (a : Byte) (h : t.stack = s.stack) : memRead a t = memRead a s := by
  simp only [memRead, h]

theorem enterFault_eq_atFault (k : Cause) : enterFault k s = s.atFault k := rfl

end Sys2Proof.Machine
end

