-- ==== Sys2Proof/Laws/Memory.lean ====
section
/-! SUPPORT. The laws of the stack memory: read after write, the canonical form kept, and equal reads of canonical
memories meaning equal memories. -/

namespace Sys2Proof.Machine

theorem wf_cons (a : Nat) (v : Byte) (m : Memory) :
    Memory.wf ((a, v) :: m) = true ↔
      a < Config.stackCap ∧ v ≠ unlistedByte ∧ (∀ c ∈ m, a < c.1) ∧ Memory.wf m = true := by
  simp only [Memory.wf, Bool.and_eq_true, decide_eq_true_eq, List.all_eq_true]
  constructor
  · rintro ⟨⟨⟨h1, h2⟩, h3⟩, h4⟩
    exact ⟨h1, h2, h3, h4⟩
  · rintro ⟨h1, h2, h3, h4⟩
    exact ⟨⟨⟨h1, h2⟩, h3⟩, h4⟩

/-- A cell below every listed address reads as unlisted. -/
theorem readCell_below (m : Memory) (a : Nat) (h : ∀ c ∈ m, a < c.1) : readCell m a = unlistedByte := by
  induction m with
  | nil => rfl
  | cons c m ih =>
    have hc : a < c.1 := h c (by simp)
    have hne : ¬ a = c.1 := by omega
    simp only [readCell, if_neg hne]
    exact ih fun d hd => h d (by simp [hd])

/-- Cells listed in a memory lie inside the address space. -/
theorem readCell_outside (m : Memory) (a : Nat) (hw : Memory.wf m = true) (h : Config.stackCap ≤ a) :
    readCell m a = unlistedByte := by
  induction m with
  | nil => rfl
  | cons c m ih =>
    obtain ⟨h1, -, -, h4⟩ := (wf_cons c.1 c.2 m).1 hw
    have hne : ¬ a = c.1 := by omega
    simp only [readCell, if_neg hne]
    exact ih h4

/-- The cell written reads as the value written. -/
theorem readCell_writeCell_self (m : Memory) (a : Nat) (v : Byte) (hw : Memory.wf m = true) :
    readCell (writeCell m a v) a = v := by
  induction m with
  | nil =>
    simp only [writeCell]
    split
    · simp_all [readCell]
    · simp [readCell]
  | cons c m ih =>
    obtain ⟨-, -, h3, h4⟩ := (wf_cons c.1 c.2 m).1 hw
    simp only [writeCell]
    split
    · rename_i hlt
      split
      · rename_i hv
        rw [hv]
        exact readCell_below (c :: m) a (by
          intro d hd
          rcases List.mem_cons.1 hd with rfl | hd
          · exact hlt
          · exact lt_trans hlt (h3 d hd))
      · simp [readCell]
    · split
      · rename_i heq
        split
        · rename_i hv
          rw [hv]
          exact readCell_below m a (by simpa [heq] using h3)
        · simp [readCell]
      · rename_i hne
        simp only [readCell, if_neg hne]
        exact ih h4

/-- Every other cell reads as before. -/
theorem readCell_writeCell_other (m : Memory) (a b : Nat) (v : Byte) (hw : Memory.wf m = true) (h : b ≠ a) :
    readCell (writeCell m a v) b = readCell m b := by
  induction m with
  | nil =>
    simp only [writeCell]
    split
    · rfl
    · simp [readCell, h]
  | cons c m ih =>
    obtain ⟨-, -, h3, h4⟩ := (wf_cons c.1 c.2 m).1 hw
    simp only [writeCell]
    split
    · split
      · rfl
      · simp [readCell, h]
    · split
      · rename_i heq
        have hbc : ¬ b = c.1 := by omega
        split
        · simp [readCell, hbc]
        · simp [readCell, hbc, h]
      · simp only [readCell]
        split
        · rfl
        · exact ih h4

theorem mem_writeCell (m : Memory) (a : Nat) (v : Byte) (c : Host.Cell) (h : c ∈ writeCell m a v) :
    c = (a, v) ∨ c ∈ m := by
  induction m with
  | nil =>
    simp only [writeCell] at h
    split at h
    · cases h
    · exact .inl (by simpa using h)
  | cons d m ih =>
    simp only [writeCell] at h
    split at h
    · split at h
      · exact .inr h
      · rcases List.mem_cons.1 h with h | h
        · exact .inl h
        · exact .inr h
    · split at h
      · split at h
        · exact .inr (List.mem_cons_of_mem _ h)
        · rcases List.mem_cons.1 h with h | h
          · exact .inl h
          · exact .inr (List.mem_cons_of_mem _ h)
      · rcases List.mem_cons.1 h with h | h
        · exact .inr (by rw [h]; exact List.mem_cons_self)
        · rcases ih h with h | h
          · exact .inl h
          · exact .inr (List.mem_cons_of_mem _ h)

/-- A write inside the address space keeps the canonical form. -/
theorem writeCell_wf (m : Memory) (a : Nat) (v : Byte) (ha : a < Config.stackCap) (hw : Memory.wf m = true) :
    Memory.wf (writeCell m a v) = true := by
  induction m with
  | nil =>
    simp only [writeCell]
    split
    · rfl
    · rename_i hv
      exact (wf_cons a v []).2 ⟨ha, hv, by simp, rfl⟩
  | cons c m ih =>
    obtain ⟨h1, h2, h3, h4⟩ := (wf_cons c.1 c.2 m).1 hw
    simp only [writeCell]
    split
    · rename_i hlt
      split
      · exact hw
      · rename_i hv
        refine (wf_cons a v _).2 ⟨ha, hv, ?_, hw⟩
        intro d hd
        rcases List.mem_cons.1 hd with rfl | hd
        · exact hlt
        · exact lt_trans hlt (h3 d hd)
    · split
      · rename_i heq
        split
        · exact h4
        · rename_i hv
          exact (wf_cons a v _).2 ⟨ha, hv, by simpa [heq] using h3, h4⟩
      · rename_i hlt hne
        refine (wf_cons c.1 c.2 _).2 ⟨h1, h2, ?_, ih h4⟩
        intro d hd
        rcases mem_writeCell m a v d hd with rfl | hd
        · show c.1 < a
          omega
        · exact h3 d hd

/-- Canonical memories that read alike are equal. -/
theorem readCell_ext (m n : Memory) (hm : Memory.wf m = true) (hn : Memory.wf n = true)
    (h : ∀ a, readCell m a = readCell n a) : m = n := by
  induction m generalizing n with
  | nil =>
    cases n with
    | nil => rfl
    | cons d n =>
      obtain ⟨-, h2, -, -⟩ := (wf_cons d.1 d.2 n).1 hn
      have := h d.1
      simp only [readCell, if_true] at this
      exact absurd this.symm h2
  | cons c m ih =>
    obtain ⟨-, hc2, hc3, hc4⟩ := (wf_cons c.1 c.2 m).1 hm
    cases n with
    | nil =>
      have := h c.1
      simp only [readCell, if_true] at this
      exact absurd this hc2
    | cons d n =>
      obtain ⟨-, hd2, hd3, hd4⟩ := (wf_cons d.1 d.2 n).1 hn
      have hcd : c.1 = d.1 := by
        rcases lt_trichotomy c.1 d.1 with hlt | heq | hlt
        · have := h c.1
          rw [readCell_below (d :: n) c.1 (by
            intro e he
            rcases List.mem_cons.1 he with rfl | he
            · exact hlt
            · exact lt_trans hlt (hd3 e he))] at this
          simp only [readCell, if_true] at this
          exact absurd this hc2
        · exact heq
        · have := h d.1
          rw [readCell_below (c :: m) d.1 (by
            intro e he
            rcases List.mem_cons.1 he with rfl | he
            · exact hlt
            · exact lt_trans hlt (hc3 e he))] at this
          simp only [readCell, if_true] at this
          exact absurd this.symm hd2
      have hv : c.2 = d.2 := by
        have := h c.1
        rw [hcd] at this
        simpa [readCell, hcd] using this
      have hcd' : c = d := Prod.ext hcd hv
      subst hcd'
      refine congrArg (c :: ·) (ih n hc4 hd4 fun a => ?_)
      by_cases ha : a = c.1
      · rw [ha, readCell_below m _ hc3, readCell_below n _ hd3]
      · have := h a
        simpa only [readCell, if_neg ha] using this

/-! ### The same laws on the state -/

theorem memRead_memWrite_self (s : State) (a v : Byte) (hw : Memory.wf s.stack = true) :
    memRead a (memWrite a v s) = v := readCell_writeCell_self s.stack a.toNat v hw

theorem memRead_memWrite_other (s : State) (a b v : Byte) (hw : Memory.wf s.stack = true) (h : b ≠ a) :
    memRead b (memWrite a v s) = memRead b s :=
  readCell_writeCell_other s.stack a.toNat b.toNat v hw fun e => h (BitVec.eq_of_toNat_eq e)

theorem memWrite_wf (s : State) (a v : Byte) (hw : Memory.wf s.stack = true) :
    Memory.wf (memWrite a v s).stack = true := writeCell_wf s.stack a.toNat v a.isLt hw

/-- A raw write of any slot keeps the canonical form of the slots without a name. -/
theorem write_spare_wf (s : State) (d : Slot) (v : Byte) (hw : Memory.wf s.spare = true) :
    Memory.wf (s.write d v).spare = true := by
  cases d with
  | named r => rw [write_named, set_spare]; exact hw
  | spare id => exact writeCell_wf s.spare id.toNat v id.isLt hw

/-- A slot without a name reads back what was written to it. -/
theorem read_write_spare_self (s : State) (id v : Byte) (hw : Memory.wf s.spare = true) :
    (s.write (.spare id) v).read (.spare id) = v := readCell_writeCell_self s.spare id.toNat v hw

/-- A write to a slot without a name leaves every other slot as it is. -/
theorem read_write_spare_other (s : State) (id v : Byte) (d : Slot) (hw : Memory.wf s.spare = true)
    (h : d ≠ .spare id) : (s.write (.spare id) v).read d = s.read d := by
  cases d with
  | named r => exact get_write_spare s id v r
  | spare id' =>
    exact readCell_writeCell_other s.spare id.toNat id'.toNat v hw fun e => h (by rw [BitVec.eq_of_toNat_eq e])

theorem reset_stack_wf : Memory.wf State.reset.stack = true := rfl

end Sys2Proof.Machine
end

