-- ==== Sys2Proof/Laws/Ops.lean ====
section
/-! SUPPORT. One lemma (or a few) per shared operation that says everything it can do; later proofs cite these and do not
unfold the operation. -/

namespace Sys2Proof.Machine

/-! ### Register identifiers -/

/-- Under a configuration in which things have different numbers, a slot's identifier names it. -/
theorem slotOf_regid {c : Config} (h : c.Ok) (r : Reg) : slotOf c (c.enc.regid r) = some (.named r) := by
  have hlt := h.2 r
  have hf : regOfId c.enc (c.enc.regid r) = some r := by
    cases hf : regOfId c.enc (c.enc.regid r) with
    | none => exact absurd (List.find?_eq_none.1 hf r (by cases r <;> decide)) (by simp)
    | some r' => rw [h.1.2.2 r' r (by simpa using List.find?_some hf)]
  rw [slotOf, if_neg (by omega), hf]

/-- An identifier at or past `NREG` names no slot. -/
theorem slotOf_of_ge {c : Config} {id : Byte} (h : c.nreg ≤ id.toNat) : slotOf c id = none := if_pos h

/-- An identifier below `NREG` that no named slot has names a slot of its own. -/
theorem slotOf_spare {c : Config} {id : Byte} (h : id.toNat < c.nreg) (hn : ∀ r, id ≠ c.enc.regid r) :
    slotOf c id = some (.spare id) := by
  have hf : regOfId c.enc id = none := by
    rw [regOfId, List.find?_eq_none]
    intro r _ e
    exact hn r (by simpa using e : c.enc.regid r = id).symm
  rw [slotOf, if_neg (by omega), hf]

theorem slotOf_lt {c : Config} {id : Byte} {d : Slot} (h : slotOf c id = some d) : id.toNat < c.nreg := by
  by_contra hn
  rw [slotOf_of_ge (by omega)] at h
  cases h

theorem regValue_toNat_lt (r : Reg) : (regValue r).toNat < 9 := by cases r <;> decide

theorem standard_ok : Config.standard.Ok := ⟨standard_injective, regValue_toNat_lt⟩

@[simp] theorem slotOf_regValue (r : Reg) : slotOf .standard (regValue r) = some (.named r) := slotOf_regid standard_ok r

/-- Every identifier below 9 names a slot. -/
theorem eq_regValue_of_lt (id : Byte) (h : id.toNat < 9) : ∃ r, id = regValue r := by
  have key : ∀ n : Fin 9, (Reg.all.any fun r => BitVec.ofNat 8 n.val == regValue r) = true := by decide
  obtain ⟨r, -, hr⟩ := List.any_eq_true.1 (key ⟨id.toNat, h⟩)
  exact ⟨r, by simpa using hr⟩

/-- Under the default parameters an identifier below 9 names the slot the enumeration gives it, and no other names any. -/
theorem slotOf_standard (id : Byte) :
    (9 ≤ id.toNat ∧ slotOf .standard id = none) ∨ ∃ r, id = regValue r ∧ slotOf .standard id = some (.named r) := by
  rcases Nat.lt_or_ge id.toNat 9 with h | h
  · obtain ⟨r, rfl⟩ := eq_regValue_of_lt id h
    exact .inr ⟨r, rfl, slotOf_regValue r⟩
  · exact .inl ⟨h, slotOf_of_ge h⟩

theorem slotOf_standard_some {id : Byte} {d : Slot} (h : slotOf .standard id = some d) :
    ∃ r, id = regValue r ∧ d = .named r := by
  rcases slotOf_standard id with ⟨-, e⟩ | ⟨r, hr, e⟩
  · rw [e] at h
    cases h
  · rw [e] at h
    exact ⟨r, hr, (Option.some.inj h).symm⟩

theorem slotOf_standard_none {id : Byte} (h : slotOf .standard id = none) : 9 ≤ id.toNat := by
  rcases slotOf_standard id with ⟨h9, -⟩ | ⟨r, -, e⟩
  · exact h9
  · rw [e] at h
    cases h

/-- The flag slots are the identifiers 6, 7 and 8. -/
theorem isFlag_iff (r : Reg) : r.isFlag = true ↔ 6 ≤ (regValue r).toNat := by cases r <;> decide

/-! ### Register accessors -/

theorem regRead_of_slot {c : Config} {id : Byte} {d : Slot} (s : State) (h : slotOf c id = some d) :
    regRead c id s = .ok (s.read d) := by simp only [regRead, h]

theorem regRead_of_none {c : Config} {id : Byte} (s : State) (h : slotOf c id = none) :
    regRead c id s = .error .invalidRegister := by simp only [regRead, h]

theorem regRead_cases (c : Config) (id : Byte) (s : State) :
    (slotOf c id = none ∧ regRead c id s = .error .invalidRegister) ∨
      ∃ d, slotOf c id = some d ∧ regRead c id s = .ok (s.read d) := by
  cases h : slotOf c id with
  | none => exact .inl ⟨rfl, regRead_of_none s h⟩
  | some d => exact .inr ⟨d, rfl, regRead_of_slot s h⟩

theorem regWrite_of_slot {c : Config} {id : Byte} {d : Slot} (v : Byte) (s : State) (h : slotOf c id = some d)
    (hp : protects c d = false) : regWrite c id v s = .ok (s.write d v) := by
  simp only [regWrite, h, hp, Bool.false_eq_true, if_false]

theorem regWrite_of_protected {c : Config} {id : Byte} {d : Slot} (v : Byte) (s : State) (h : slotOf c id = some d)
    (hp : protects c d = true) : regWrite c id v s = .error .protectedRegister := by
  simp only [regWrite, h, hp, if_true]

theorem regWrite_of_none {c : Config} {id : Byte} (v : Byte) (s : State) (h : slotOf c id = none) :
    regWrite c id v s = .error .invalidRegister := by simp only [regWrite, h]

theorem regWrite_cases (c : Config) (id v : Byte) (s : State) :
    (slotOf c id = none ∧ regWrite c id v s = .error .invalidRegister) ∨
    (∃ d, slotOf c id = some d ∧ protects c d = true ∧ regWrite c id v s = .error .protectedRegister) ∨
    (∃ d, slotOf c id = some d ∧ protects c d = false ∧ regWrite c id v s = .ok (s.write d v)) := by
  cases h : slotOf c id with
  | none => exact .inl ⟨rfl, regWrite_of_none v s h⟩
  | some d =>
    cases hp : protects c d
    · exact .inr (.inr ⟨d, rfl, hp, regWrite_of_slot v s h hp⟩)
    · exact .inr (.inl ⟨d, rfl, hp, regWrite_of_protected v s h hp⟩)

/-- A protected slot is a flag slot. -/
theorem protects_isFlag {c : Config} {d : Slot} (h : protects c d = true) : d.isFlag = true := by
  unfold protects at h
  split at h
  · exact h
  · cases h

@[simp] theorem protects_standard (d : Slot) : protects .standard d = d.isFlag := rfl

@[simp] theorem regRead_regValue (r : Reg) (s : State) : regRead .standard (regValue r) s = .ok (s.get r) :=
  regRead_of_slot s (slotOf_regValue r)

theorem regRead_of_ge (id : Byte) (s : State) (h : 9 ≤ id.toNat) : regRead .standard id s = .error .invalidRegister :=
  regRead_of_none s (slotOf_of_ge h)

theorem regWrite_plain (r : Reg) (v : Byte) (s : State) (h : r.isFlag = false) :
    regWrite .standard (regValue r) v s = .ok (s.set r v) := regWrite_of_slot v s (slotOf_regValue r) h

theorem regWrite_flag (r : Reg) (v : Byte) (s : State) (h : r.isFlag = true) :
    regWrite .standard (regValue r) v s = .error .protectedRegister := regWrite_of_protected v s (slotOf_regValue r) h

theorem regWrite_of_ge (id v : Byte) (s : State) (h : 9 ≤ id.toNat) :
    regWrite .standard id v s = .error .invalidRegister := regWrite_of_none v s (slotOf_of_ge h)

/-! ### The resolver -/

theorem resolve_of_readsWith {c : Config} {m : Mode} {b v : Byte} {s : State} (h : ReadsWith c m b s v) :
    resolve c m b s = .ok v := by
  obtain ⟨hm, d, hd, rfl⟩ | ⟨hm, rfl⟩ := h <;> obtain rfl | rfl := hm
  · exact regRead_of_slot s hd
  · exact regRead_of_slot s hd
  · rfl
  · rfl

theorem resolve_of_none {c : Config} {m : Mode} {b : Byte} (s : State) (hm : m = .rr ∨ m = .sr) (h : slotOf c b = none) :
    resolve c m b s = .error .invalidRegister := by
  obtain rfl | rfl := hm <;> exact regRead_of_none s h

theorem resolve_cases (c : Config) (m : Mode) (b : Byte) (s : State) :
    ((m = .rr ∨ m = .sr) ∧ slotOf c b = none ∧ resolve c m b s = .error .invalidRegister) ∨
      ∃ v, ReadsWith c m b s v ∧ resolve c m b s = .ok v := by
  have key (hm : m = .rr ∨ m = .sr) (hr : resolve c m b s = regRead c b s) :
      ((m = .rr ∨ m = .sr) ∧ slotOf c b = none ∧ resolve c m b s = .error .invalidRegister) ∨
        ∃ v, ReadsWith c m b s v ∧ resolve c m b s = .ok v := by
    rcases regRead_cases c b s with ⟨h, e⟩ | ⟨d, hd, e⟩
    · exact .inl ⟨hm, h, hr.trans e⟩
    · exact .inr ⟨s.read d, .inl ⟨hm, d, hd, rfl⟩, hr.trans e⟩
  cases m
  case ri => exact .inr ⟨b, .inr ⟨.inl rfl, rfl⟩, rfl⟩
  case si => exact .inr ⟨b, .inr ⟨.inr rfl, rfl⟩, rfl⟩
  case rr => exact key (.inl rfl) rfl
  case sr => exact key (.inr rfl) rfl

/-- Under the default parameters the two readings of an operand agree. -/
theorem readsWith_standard {m : Mode} {b v : Byte} {s : State} : ReadsWith .standard m b s v ↔ Reads m b s v := by
  constructor
  · rintro (⟨hm, d, hd, rfl⟩ | h)
    · obtain ⟨r, hr, rfl⟩ := slotOf_standard_some hd
      exact .inl ⟨hm, r, hr, rfl⟩
    · exact .inr h
  · rintro (⟨hm, r, rfl, rfl⟩ | h)
    · exact .inl ⟨hm, .named r, slotOf_regValue r, rfl⟩
    · exact .inr h

theorem resolve_of_reads {m : Mode} {b v : Byte} {s : State} (h : Reads m b s v) : resolve .standard m b s = .ok v :=
  resolve_of_readsWith (readsWith_standard.2 h)

theorem resolve_of_ge {m : Mode} {b : Byte} (s : State) (hm : m = .rr ∨ m = .sr) (h : 9 ≤ b.toNat) :
    resolve .standard m b s = .error .invalidRegister := resolve_of_none s hm (slotOf_of_ge h)

theorem resolve_of_ok {m : Mode} {b : Byte} (s : State) (h : OperandOk m b) : ∃ v, resolve .standard m b s = .ok v := by
  rcases resolve_cases .standard m b s with ⟨hm, hb, -⟩ | ⟨v, -, e⟩
  · have h9 := slotOf_standard_none hb
    obtain rfl | rfl | h := h
    · rcases hm with hm | hm <;> cases hm
    · rcases hm with hm | hm <;> cases hm
    · omega
  · exact ⟨v, e⟩

/-! ### The stack and the program counter -/

theorem stackPush_cases (v : Byte) (s : State) :
    (s.sp = 0 ∧ stackPush v s = .error .stackOverflow) ∨
    (s.sp ≠ 0 ∧ stackPush v s = .ok (memWrite (s.sp - 1) v { s with sp := s.sp - 1 })) := by
  by_cases h : s.sp = 0
  · exact .inl ⟨h, by simp only [stackPush, h, if_true]⟩
  · exact .inr ⟨h, by simp only [stackPush, h, if_false]⟩

theorem stackPop_cases (s : State) :
    (s.sp = Config.stackTop ∧ stackPop s = .error .stackUnderflow) ∨
    (s.sp ≠ Config.stackTop ∧ stackPop s = .ok (memRead s.sp s, { s with sp := s.sp + 1 })) := by
  by_cases h : s.sp = Config.stackTop
  · exact .inl ⟨h, by simp only [stackPop, h, if_true]⟩
  · exact .inr ⟨h, by simp only [stackPop, h, if_false]⟩

theorem setPC_cases (t : Byte) (s : State) :
    (s.len ≤ t.toNat ∧ setPC t s = .error .invalidJumpTarget) ∨
    (t.toNat < s.len ∧ setPC t s = .ok { s with pc := t }) := by
  by_cases h : s.len ≤ t.toNat
  · exact .inl ⟨h, by simp only [setPC, h, if_true]⟩
  · exact .inr ⟨by omega, by simp only [setPC, h, if_false]⟩

/-! ### Executions -/

@[simp] theorem orRaise_ok {α : Type} (s : State) (v : α) (go : α → Execution) : orRaise s (.ok v) go = go v := rfl

@[simp] theorem orRaise_error {α : Type} (s : State) (k : Cause) (go : α → Execution) :
    orRaise s (.error k) go = .raise k s := rfl

/-- The state an execution leaves when the loop goes on from it, the increment never refused. -/
def settle : Execution → State
  | .done .next s => incrementPC s
  | .done .jumped s => s
  | .raise k s => s.atFault k

@[simp] theorem settle_next (s : State) : settle (.done .next s) = incrementPC s := rfl

@[simp] theorem settle_jumped (s : State) : settle (.done .jumped s) = s := rfl

@[simp] theorem settle_raise (k : Cause) (s : State) : settle (.raise k s) = s.atFault k := rfl

/-- The loop's increment answers the incremented state or, under `PC_WRAP` = refuse, at PC = 255, its refusal. -/
theorem advance_cases (c : Config) (s : State) :
    advance c s = .next (incrementPC s) ∨
      (c.pcWrap = .refuse ∧ s.pc = 255 ∧ advance c s = .refused .pcWouldWrap) := by
  cases h : c.pcWrap
  · exact .inl (by simp only [advance, h])
  · by_cases hp : s.pc = 255
    · exact .inr ⟨rfl, hp, by simp only [advance, h, hp, if_true]⟩
    · exact .inl (by simp only [advance, h, hp, if_false])

theorem advance_of_wrap {c : Config} (s : State) (h : c.pcWrap = .wrap) : advance c s = .next (incrementPC s) := by
  simp only [advance, h]

theorem advance_of_ne (c : Config) (s : State) (h : s.pc ≠ 255) : advance c s = .next (incrementPC s) := by
  rcases advance_cases c s with e | ⟨-, hp, -⟩
  · exact e
  · exact absurd hp h

/-- The loop's treatment of an execution answers the settled state or refuses the increment. -/
theorem finish_cases (c : Config) (e : Execution) :
    finish c e = .next (settle e) ∨
      (c.pcWrap = .refuse ∧ (∃ s, e = .done .next s ∧ s.pc = 255) ∧ finish c e = .refused .pcWouldWrap) := by
  match e with
  | .done .jumped s => exact .inl rfl
  | .raise k s => exact .inl rfl
  | .done .next s =>
    rcases advance_cases c s with h | ⟨hc, hp, h⟩
    · exact .inl h
    · exact .inr ⟨hc, ⟨s, rfl, hp⟩, h⟩

theorem finish_of_wrap {c : Config} (e : Execution) (h : c.pcWrap = .wrap) : finish c e = .next (settle e) := by
  rcases finish_cases c e with hf | ⟨hc, -⟩
  · exact hf
  · rw [h] at hc
    cases hc

theorem runRecord_of_accepts {c : Config} {o : Opcode} {m : Mode} (e : Execution) (h : o.accepts m = true) :
    runRecord c o m e = finish c e := by simp only [runRecord, h, if_true]

theorem runRecord_accepted {o : Opcode} {m : Mode} (e : Execution) (h : o.accepts m = true) :
    runRecord .standard o m e = .next (settle e) := (runRecord_of_accepts e h).trans (finish_of_wrap e rfl)

theorem runRecord_rejected {c : Config} {o : Opcode} {m : Mode} (e : Execution) (h : o.accepts m = false) :
    runRecord c o m e = .refused .illFormedRecord := by simp only [runRecord, h, Bool.false_eq_true, if_false]

/-- A next state of a meaning is the settled one, and the opcode accepts the mode. -/
theorem runRecord_next {c : Config} {o : Opcode} {m : Mode} {e : Execution} {t : State} (h : runRecord c o m e = .next t) :
    o.accepts m = true ∧ t = settle e := by
  cases ha : o.accepts m
  · rw [runRecord_rejected e ha] at h
    cases h
  · rw [runRecord_of_accepts e ha] at h
    rcases finish_cases c e with hf | ⟨-, -, hf⟩
    · rw [hf] at h
      exact ⟨rfl, (Host.Outcome.next.inj h).symm⟩
    · rw [hf] at h
      cases h

end Sys2Proof.Machine
end

