-- ==== Sys2Proof/Laws/Exec.lean ====
section
/-! SUPPORT. What one execution can do, said once for every configuration: `Effect c i s t` lists the ways a well-formed
record can take `s` to `t`, `execWith_effect` says that every next state of `execWith` is one of them, and `stepWith_cases`
says the same of a step. `exec` and `step` are the case of the default configuration. Invariants and whole-machine rules
are case splits on these. -/

namespace Sys2Proof.Machine

/-! ### The default configuration -/

theorem execWith_standard (i : Instr) (s : State) : execWith .standard i s = exec i s := by cases i <;> rfl

theorem stepWith_standard (s : State) : stepWith .standard s = step s := by
  have h : execWith .standard = exec := funext fun i => funext fun s => execWith_standard i s
  simp only [stepWith, step, h]

/-! ### Executions -/

/-- The state after writing `v` to slot `d` with `f` applied to the flags, and the increment. -/
def afterWrite (d : Slot) (v : Byte) (f : State → State) (s : State) : State := incrementPC (f (s.write d v))

/-- The instructions with a register destination that is written (R27, R222). -/
def writers : List Opcode := [.mov, .add, .sub, .mul, .pop]

/-- When a record can raise a cause before any effect of its own (R222, R225). -/
def CanRaise (c : Config) (i : Instr) (s : State) : Cause → Prop
  | .invalidRegister =>
    i.opcode ≠ .pop ∧ ((i.mode ≠ .si ∧ slotOf c i.dest = none) ∨ (i.mode = .rr ∧ slotOf c i.src = none))
  | .protectedRegister =>
    i.opcode ≠ .pop ∧ i.opcode ∈ writers ∧ ∃ d, slotOf c i.dest = some d ∧ protects c d = true
  | .stackOverflow => i.opcode = .push ∧ s.sp = 0
  | .stackUnderflow => i.opcode = .pop ∧ s.sp = Config.stackTop
  | .invalidJumpTarget =>
    i.opcode ∈ [Opcode.jmp, .be, .bne] ∧ ∃ v, ReadsWith c i.mode i.dest s v ∧ s.len ≤ v.toNat
  | .unknownOpcode | .illegalMode | .programTooLarge | .internalInvariant => False

/-- A branch that raises is a taken one (R201, R202). -/
def BranchTaken (i : Instr) (s : State) : Prop :=
  (i.opcode = .be → s.zf = true) ∧ (i.opcode = .bne → s.zf = false)

/-- What a POP raises after its pop (R191): its destination is no writable register. -/
def PopCause (c : Config) (dest : Byte) (k : Cause) : Prop :=
  (k = .invalidRegister ∧ slotOf c dest = none) ∨
    (k = .protectedRegister ∧ ∃ d, slotOf c dest = some d ∧ protects c d = true)

/-- Every way a record can take a state to the next. -/
inductive Effect (c : Config) : Instr → State → State → Prop where
  | fault (i : Instr) (s : State) (k : Cause) (hk : CanRaise c i s k) (ht : BranchTaken i s) : Effect c i s (s.atFault k)
  | popFault (m : Mode) (src dest : Byte) (s : State) (k : Cause) (hk : PopCause c dest k)
      (hs : s.sp ≠ Config.stackTop) :
      Effect c (.pop m src dest) s (State.atFault { s with sp := s.sp + 1 } k)
  | mov (m : Mode) (src dest : Byte) (d : Slot) (v : Byte) (s : State) (hdest : slotOf c dest = some d)
      (hd : protects c d = false) (hv : ReadsWith c m src s v) :
      Effect c (.mov m src dest) s (afterWrite d v id s)
  | alu (i : Instr) (alu : Byte → Byte → AluResult) (d : Slot) (v : Byte) (s : State) (hdest : slotOf c i.dest = some d)
      (hd : protects c d = false)
      (hi : (i.opcode = .add ∧ alu = aluAdd) ∨ (i.opcode = .sub ∧ alu = aluSub) ∨ (i.opcode = .mul ∧ alu = aluMul))
      (hv : ReadsWith c i.mode i.src s v) :
      Effect c i s (afterWrite d (alu (s.read d) v).result
        (updateFlags (alu (s.read d) v).result (alu (s.read d) v).carry (alu (s.read d) v).overflow) s)
  | cmp (m : Mode) (src dest : Byte) (d : Slot) (v : Byte) (s : State) (hdest : slotOf c dest = some d)
      (hv : ReadsWith c m src s v) :
      Effect c (.cmp m src dest) s (incrementPC (updateCmpFlags ((s.read d).toInt - v.toInt) s))
  | push (m : Mode) (src dest v : Byte) (s : State) (hs : s.sp ≠ 0) (hv : ReadsWith c m dest s v) :
      Effect c (.push m src dest) s (incrementPC (memWrite (s.sp - 1) v { s with sp := s.sp - 1 }))
  | pop (m : Mode) (src dest : Byte) (d : Slot) (s : State) (hdest : slotOf c dest = some d) (hd : protects c d = false)
      (hs : s.sp ≠ Config.stackTop) :
      Effect c (.pop m src dest) s (afterWrite d (memRead s.sp s) id { s with sp := s.sp + 1 })
  | jump (i : Instr) (v : Byte) (s : State)
      (hi : i.opcode = .jmp ∨ (i.opcode = .be ∧ s.zf = true) ∨ (i.opcode = .bne ∧ s.zf = false))
      (hv : ReadsWith c i.mode i.dest s v) (ht : v.toNat < s.len) : Effect c i s { s with pc := v }
  | notTaken (i : Instr) (s : State) (hi : (i.opcode = .be ∧ s.zf = false) ∨ (i.opcode = .bne ∧ s.zf = true)) :
      Effect c i s (incrementPC s)
  | print (m : Mode) (src dest v : Byte) (s : State) (hv : ReadsWith c m dest s v) :
      Effect c (.print m src dest) s (incrementPC (emit v s))

/-- A register operand of a two-operand form that names no slot. -/
theorem mode_rr_of {o : Opcode} {m : Mode} (h : m = .rr ∨ m = .sr) (ho : o.accepts m = true)
    (hsr : o.accepts .sr = false) : m = .rr := by
  rcases h with rfl | rfl
  · rfl
  · rw [hsr] at ho
    cases ho

/-- A mode with a register operand is not the single-immediate one. -/
theorem mode_ne_si {m : Mode} (h : m = .rr ∨ m = .sr) : m ≠ .si := by rcases h with rfl | rfl <;> nofun

theorem arithmetic_effect {c : Config} {i : Instr} {alu : Byte → Byte → AluResult} {s : State}
    (hm : i.mode = .rr ∨ i.mode = .ri)
    (hi : (i.opcode = .add ∧ alu = aluAdd) ∨ (i.opcode = .sub ∧ alu = aluSub) ∨ (i.opcode = .mul ∧ alu = aluMul)) :
    Effect c i s (settle (arithmetic c alu i.mode i.src i.dest s)) := by
  have hw : i.opcode ∈ writers := by rcases hi with ⟨h, -⟩ | ⟨h, -⟩ | ⟨h, -⟩ <;> rw [h] <;> decide
  have hp : i.opcode ≠ .pop := by rcases hi with ⟨h, -⟩ | ⟨h, -⟩ | ⟨h, -⟩ <;> rw [h] <;> nofun
  have ht : BranchTaken i s := by rcases hi with ⟨h, -⟩ | ⟨h, -⟩ | ⟨h, -⟩ <;> constructor <;> rw [h] <;> nofun
  have hsi : i.mode ≠ .si := by rcases hm with h | h <;> rw [h] <;> nofun
  unfold arithmetic
  rcases regRead_cases c i.dest s with ⟨hb, e⟩ | ⟨d, hd, e⟩
  · rw [e]
    exact .fault i s .invalidRegister ⟨hp, .inl ⟨hsi, hb⟩⟩ ht
  · rw [e, orRaise_ok]
    rcases resolve_cases c i.mode i.src s with ⟨hr, hb, e⟩ | ⟨v, hv, e⟩
    · rw [e]
      refine .fault i s .invalidRegister ⟨hp, .inr ⟨?_, hb⟩⟩ ht
      rcases hm with h | h
      · exact h
      · rw [h] at hr
        rcases hr with hr | hr <;> cases hr
    · rw [e, orRaise_ok]
      cases hf : protects c d
      · rw [regWrite_of_slot _ s hd hf]
        exact .alu i alu d v s hd hf hi hv
      · rw [regWrite_of_protected _ s hd hf]
        exact .fault i s .protectedRegister ⟨hp, hw, d, hd, hf⟩ ht

theorem transfer_effect {c : Config} {i : Instr} {s : State}
    (hi : i.opcode = .jmp ∨ (i.opcode = .be ∧ s.zf = true) ∨ (i.opcode = .bne ∧ s.zf = false)) :
    Effect c i s (settle (transfer c i.mode i.dest s)) := by
  have ht : BranchTaken i s := by
    rcases hi with h | ⟨h, hz⟩ | ⟨h, hz⟩ <;> constructor <;> rw [h] <;> first | exact fun _ => hz | nofun
  have hmem : i.opcode ∈ [Opcode.jmp, .be, .bne] := by rcases hi with h | ⟨h, -⟩ | ⟨h, -⟩ <;> rw [h] <;> decide
  have hp : i.opcode ≠ .pop := by rcases hi with h | ⟨h, -⟩ | ⟨h, -⟩ <;> rw [h] <;> nofun
  unfold transfer
  rcases resolve_cases c i.mode i.dest s with ⟨hm, hb, e⟩ | ⟨v, hv, e⟩
  · rw [e]
    exact .fault i s .invalidRegister ⟨hp, .inl ⟨mode_ne_si hm, hb⟩⟩ ht
  · rw [e, orRaise_ok]
    rcases setPC_cases v s with ⟨hlen, e⟩ | ⟨hlt, e⟩
    · rw [e]
      exact .fault i s .invalidJumpTarget ⟨hmem, v, hv, hlen⟩ ht
    · rw [e]
      exact .jump i v s hi hv hlt

/-- The modes a two-operand opcode accepts. -/
theorem two_operand_mode {o : Opcode} {m : Mode} (ho : o.accepts .sr = false) (ho' : o.accepts .si = false)
    (h : o.accepts m = true) : m = .rr ∨ m = .ri := by
  cases m
  · exact .inl rfl
  · exact .inr rfl
  · rw [ho] at h
    cases h
  · rw [ho'] at h
    cases h

/-- Every next state of `execWith` is one of the listed effects, and the record is well formed. -/
theorem execWith_effect {c : Config} {i : Instr} {s t : State} (h : execWith c i s = .next t) :
    i.wf = true ∧ Effect c i s t := by
  cases i with
  | mov m src dest =>
    obtain ⟨hm, rfl⟩ := runRecord_next h
    have hrr := two_operand_mode (o := .mov) rfl rfl hm
    refine ⟨hm, ?_⟩
    rcases resolve_cases c m src s with ⟨hb, hs, e⟩ | ⟨v, hv, e⟩
    · rw [e]
      exact .fault _ s .invalidRegister ⟨nofun, .inr ⟨mode_rr_of (o := .mov) hb hm rfl, hs⟩⟩ ⟨nofun, nofun⟩
    · rw [e, orRaise_ok]
      rcases regWrite_cases c dest v s with ⟨hb, e⟩ | ⟨d, hd, hp, e⟩ | ⟨d, hd, hp, e⟩
      · rw [e]
        exact .fault _ s .invalidRegister ⟨nofun, .inl ⟨by rcases hrr with rfl | rfl <;> nofun, hb⟩⟩ ⟨nofun, nofun⟩
      · rw [e]
        exact .fault _ s .protectedRegister ⟨nofun, (by decide : Opcode.mov ∈ writers), d, hd, hp⟩ ⟨nofun, nofun⟩
      · rw [e]
        exact .mov m src dest d v s hd hp hv
  | add m src dest =>
    obtain ⟨hm, rfl⟩ := runRecord_next h
    exact ⟨hm, arithmetic_effect (i := .add m src dest) (two_operand_mode (o := .add) rfl rfl hm) (.inl ⟨rfl, rfl⟩)⟩
  | sub m src dest =>
    obtain ⟨hm, rfl⟩ := runRecord_next h
    exact ⟨hm, arithmetic_effect (i := .sub m src dest) (two_operand_mode (o := .sub) rfl rfl hm) (.inr (.inl ⟨rfl, rfl⟩))⟩
  | mul m src dest =>
    obtain ⟨hm, rfl⟩ := runRecord_next h
    exact ⟨hm, arithmetic_effect (i := .mul m src dest) (two_operand_mode (o := .mul) rfl rfl hm) (.inr (.inr ⟨rfl, rfl⟩))⟩
  | cmp m src dest =>
    obtain ⟨hm, rfl⟩ := runRecord_next h
    have hrr := two_operand_mode (o := .cmp) rfl rfl hm
    refine ⟨hm, ?_⟩
    rcases regRead_cases c dest s with ⟨hb, e⟩ | ⟨d, hd, e⟩
    · rw [e]
      exact .fault _ s .invalidRegister ⟨nofun, .inl ⟨by rcases hrr with rfl | rfl <;> nofun, hb⟩⟩ ⟨nofun, nofun⟩
    · rw [e, orRaise_ok]
      rcases resolve_cases c m src s with ⟨hb, hs, e⟩ | ⟨v, hv, e⟩
      · rw [e]
        exact .fault _ s .invalidRegister ⟨nofun, .inr ⟨mode_rr_of (o := .cmp) hb hm rfl, hs⟩⟩ ⟨nofun, nofun⟩
      · rw [e]
        exact .cmp m src dest d v s hd hv
  | push m src dest =>
    obtain ⟨hm, rfl⟩ := runRecord_next h
    refine ⟨hm, ?_⟩
    rcases resolve_cases c m dest s with ⟨hr, hb, e⟩ | ⟨v, hv, e⟩
    · rw [e]
      exact .fault _ s .invalidRegister ⟨nofun, .inl ⟨mode_ne_si hr, hb⟩⟩ ⟨nofun, nofun⟩
    · rw [e, orRaise_ok]
      rcases stackPush_cases v s with ⟨hs, e⟩ | ⟨hs, e⟩
      · rw [e]
        exact .fault _ s .stackOverflow ⟨rfl, hs⟩ ⟨nofun, nofun⟩
      · rw [e]
        exact .push m src dest v s hs hv
  | pop m src dest =>
    obtain ⟨hm, rfl⟩ := runRecord_next h
    refine ⟨hm, ?_⟩
    rcases stackPop_cases s with ⟨hs, e⟩ | ⟨hs, e⟩
    · rw [e]
      exact .fault _ s .stackUnderflow ⟨rfl, hs⟩ ⟨nofun, nofun⟩
    · rw [e, orRaise_ok]
      rcases regWrite_cases c dest (memRead s.sp s) { s with sp := s.sp + 1 } with ⟨hb, e⟩ | ⟨d, hd, hp, e⟩ | ⟨d, hd, hp, e⟩
      · rw [e]
        exact .popFault m src dest s .invalidRegister (.inl ⟨rfl, hb⟩) hs
      · rw [e]
        exact .popFault m src dest s .protectedRegister (.inr ⟨rfl, d, hd, hp⟩) hs
      · rw [e]
        exact .pop m src dest d s hd hp hs
  | jmp m src dest =>
    obtain ⟨hm, rfl⟩ := runRecord_next h
    exact ⟨hm, transfer_effect (i := .jmp m src dest) (.inl rfl)⟩
  | be m src dest =>
    obtain ⟨hm, rfl⟩ := runRecord_next h
    refine ⟨hm, ?_⟩
    cases hz : s.zf
    · exact .notTaken (.be m src dest) s (.inl ⟨rfl, hz⟩)
    · exact transfer_effect (i := .be m src dest) (.inr (.inl ⟨rfl, hz⟩))
  | bne m src dest =>
    obtain ⟨hm, rfl⟩ := runRecord_next h
    refine ⟨hm, ?_⟩
    cases hz : s.zf
    · exact transfer_effect (i := .bne m src dest) (.inr (.inr ⟨rfl, hz⟩))
    · exact .notTaken (.bne m src dest) s (.inr ⟨rfl, hz⟩)
  | print m src dest =>
    obtain ⟨hm, rfl⟩ := runRecord_next h
    refine ⟨hm, ?_⟩
    rcases resolve_cases c m dest s with ⟨hr, hb, e⟩ | ⟨v, hv, e⟩
    · rw [e]
      exact .fault _ s .invalidRegister ⟨nofun, .inl ⟨mode_ne_si hr, hb⟩⟩ ⟨nofun, nofun⟩
    · rw [e]
      exact .print m src dest v s hv

/-! ### The step -/

/-- A running step below the program's end executes the record at PC. -/
theorem stepWith_of_fetch {c : Config} {s : State} {i : Instr} (hr : s.run = .running)
    (h : s.prog[s.pc.toNat]? = some i) : stepWith c s = execWith c i s := by
  have hlt : s.pc.toNat < s.prog.length := (List.getElem?_eq_some_iff.1 h).1
  have hn : ¬ s.len ≤ s.pc.toNat := Nat.not_le_of_lt hlt
  simp only [stepWith, loopPass, hr, hn, if_false, fetch, h]

/-- Everything a step can do: nothing, when the run is over; halt; or run the record at PC. -/
theorem stepWith_cases {c : Config} {s t : State} (h : stepWith c s = .next t) :
    (s.run ≠ .running ∧ t = s) ∨
    (s.run = .running ∧ s.len ≤ s.pc.toNat ∧ t = haltRun s) ∨
    (s.run = .running ∧ s.pc.toNat < s.len ∧ ∃ i ∈ s.prog, s.prog[s.pc.toNat]? = some i ∧ i.wf = true ∧
      execWith c i s = .next t ∧ Effect c i s t) := by
  cases hr : s.run
  · rcases Nat.lt_or_ge s.pc.toNat s.len with hlt | hge
    · have hi : s.prog[s.pc.toNat]? = some s.prog[s.pc.toNat] := List.getElem?_eq_getElem hlt
      rw [stepWith_of_fetch hr hi] at h
      exact .inr (.inr ⟨rfl, hlt, _, List.getElem_mem hlt, hi, (execWith_effect h).1, h, (execWith_effect h).2⟩)
    · simp only [stepWith, loopPass, hr, hge, if_true] at h
      exact .inr (.inl ⟨rfl, hge, (Host.Outcome.next.inj h).symm⟩)
  · simp only [stepWith, loopPass, hr] at h
    exact .inl ⟨nofun, (Host.Outcome.next.inj h).symm⟩
  · simp only [stepWith, loopPass, hr] at h
    exact .inl ⟨nofun, (Host.Outcome.next.inj h).symm⟩

/-- The same of a step under the default configuration. -/
theorem step_cases {s t : State} (h : step s = .next t) :
    (s.run ≠ .running ∧ t = s) ∨
    (s.run = .running ∧ s.len ≤ s.pc.toNat ∧ t = haltRun s) ∨
    (s.run = .running ∧ s.pc.toNat < s.len ∧ ∃ i ∈ s.prog, s.prog[s.pc.toNat]? = some i ∧ i.wf = true ∧
      exec i s = .next t ∧ Effect .standard i s t) := by
  simpa only [execWith_standard] using stepWith_cases ((stepWith_standard s).trans h)

end Sys2Proof.Machine
end

