-- ==== Sys2Proof/Laws/PerInstr.lean ====
section
/-! SUPPORT. The statements made per instruction, one lemma per constructor of `Instr`. Family `FieldsInWord`: the word the
encoder makes of a record holds each part of the record in the field the format gives it (spec/30_encoding.md R90). -/

namespace Sys2Proof.Laws.FieldsInWord

/-- Every field of the encoded word is the record's, under every assignment and every reserved byte. -/
def Statement (i : Instr) : Prop :=
  ∀ (E : Encoding) (rsvd : Byte),
    fieldOpcode (encodeWith E rsvd i) = E.opc i.opcode ∧ fieldMode (encodeWith E rsvd i) = E.modev i.mode ∧
      fieldSrc (encodeWith E rsvd i) = i.src ∧ fieldDest (encodeWith E rsvd i) = i.dest ∧
      fieldReserved (encodeWith E rsvd i) = rsvd

/-- The one proof the eleven lemmas share. -/
theorem of_join (i : Instr) : Statement i := fun E rsvd => by
  simp only [encodeWith_eq_join, fieldOpcode_join, fieldMode_join, fieldSrc_join, fieldDest_join, fieldReserved_join,
    and_self]

theorem mov (m : Mode) (src dest : Byte) : Statement (.mov m src dest) := of_join _

theorem add (m : Mode) (src dest : Byte) : Statement (.add m src dest) := of_join _

theorem sub (m : Mode) (src dest : Byte) : Statement (.sub m src dest) := of_join _

theorem mul (m : Mode) (src dest : Byte) : Statement (.mul m src dest) := of_join _

theorem cmp (m : Mode) (src dest : Byte) : Statement (.cmp m src dest) := of_join _

theorem push (m : Mode) (src dest : Byte) : Statement (.push m src dest) := of_join _

theorem pop (m : Mode) (src dest : Byte) : Statement (.pop m src dest) := of_join _

theorem jmp (m : Mode) (src dest : Byte) : Statement (.jmp m src dest) := of_join _

theorem be (m : Mode) (src dest : Byte) : Statement (.be m src dest) := of_join _

theorem bne (m : Mode) (src dest : Byte) : Statement (.bne m src dest) := of_join _

theorem print (m : Mode) (src dest : Byte) : Statement (.print m src dest) := of_join _

end Sys2Proof.Laws.FieldsInWord
end

