-- ==== Sys2Proof/Tests/Slice0.lean ====
section
/-! SUPPORT. Small tests with results taken from spec/95_test_vectors.md and the examples of the instruction rules, the
smoke test of WellFormed, and one witness theorem for each statement with hypotheses: concrete operands and states that
meet them together, one for each clause. -/

namespace Sys2Proof.Tests

open Sys2Proof Sys2Proof.Machine

/-- The machine after reset with a program loaded. -/
def loaded (prog : List Instr) : State := { State.reset with prog := prog }

/-- A component of the next state, if there is one. -/
def after {α : Type} (o : Host.Outcome State Fault Refusal) (f : State → α) : Option α :=
  match o with
  | .next s => some (f s)
  | .fault _ => none
  | .refused _ => none

/-- Whether an outcome is the refusal of an ill-formed record. -/
def isIllFormed (o : Host.Outcome State Fault Refusal) : Bool :=
  match o with
  | .refused .illFormedRecord => true
  | _ => false

/-- The flags ZF, CF, OF. -/
def flags (s : State) : Bool × Bool × Bool := (s.zf, s.cf, s.of)

/-- The fault record of a state. -/
def faultOf (s : State) : Option (Cause × Nat) := s.fault.map fun f => (f.cause, f.index)

/-! ### WellFormed: the one check, on each class of the acceptance table (R95) -/

theorem test_wf_two_operand_refuses_sr : (Instr.mov .sr 0 0).wf = false := by decide
theorem test_wf_two_operand_refuses_si : (Instr.cmp .si 0 0).wf = false := by decide
theorem test_wf_one_operand_refuses_rr : (Instr.push .rr 0 0).wf = false := by decide
theorem test_wf_one_operand_refuses_ri : (Instr.print .ri 0 0).wf = false := by decide
theorem test_wf_pop_refuses_si : (Instr.pop .si 0 0).wf = false := by decide
theorem test_wf_keeps_bad_register_ids : (Instr.mov .rr 255 255).wf = true := by decide

/-! ### Words written out bit by bit from R90 and R91: dest, src, reserved, opcode, mode -/

theorem test_word_mov : decode 0b00000000_00000101_00000000_000001_01 = .ok (.mov .ri 5 0) := by decide
theorem test_word_add : decode 0b00000000_00000001_00000000_000010_00 = .ok (.add .rr 1 0) := by decide
theorem test_word_sub : decode 0b00000000_00000101_00000000_000011_01 = .ok (.sub .ri 5 0) := by decide
theorem test_word_mul : decode 0b00000001_00000010_00000000_000100_00 = .ok (.mul .rr 2 1) := by decide
theorem test_word_cmp : decode 0b00000000_00000001_00000000_000101_00 = .ok (.cmp .rr 1 0) := by decide
theorem test_word_push : decode 0b00000111_00000000_00000000_000110_11 = .ok (.push .si 0 7) := by decide
theorem test_word_pop : decode 0b00000000_10101011_00000000_000111_10 = .ok (.pop .sr 0xAB 0) := by decide
theorem test_word_jmp : decode 0b00000010_00000000_00000000_001000_10 = .ok (.jmp .sr 0 2) := by decide
theorem test_word_be : decode 0b00000100_00000000_00000000_001001_11 = .ok (.be .si 0 4) := by decide
theorem test_word_bne : decode 0b00000001_00000000_00000000_001010_11 = .ok (.bne .si 0 1) := by decide
theorem test_word_print : decode 0b11001000_00000000_00000000_001011_11 = .ok (.print .si 0 200) := by decide

/-- 2.6: the reserved byte is ignored; operand bytes are not checked. -/
theorem test_word_reserved_ignored : decode 0x12345605 = .ok (.mov .ri 0x34 0x12) := by decide
/-- 2.6: opcodes 0 and 12, and POP in SI. -/
theorem test_word_errors : decode 0 = .error .unknownOpcode ∧ decode 0x30 = .error .unknownOpcode ∧
    decode 0x1F = .error .illegalMode := by decide
/-- P1's image, first two words. -/
theorem test_image_p1 : imageWords .little [0x05, 0x00, 0x05, 0x00, 0x05, 0x00, 0x03, 0x01] =
    .ok [0x00050005, 0x01030005] := by decide
theorem test_image_of_five_bytes : imageWords .little [5, 0, 5, 0, 5] = .error .lengthNotMultipleOf4 := by decide
/-- R102: `MOV R0, 5`, `POP R1`, and two assembly errors, `POP 5` and `MOV 5, R0`. -/
theorem test_assemble : assemble .standard .mov [.reg .r0, .imm 5] = some 0x00050005 ∧
    assemble .standard .pop [.reg .r1] = some 0x0100001E ∧ assemble .standard .pop [.imm 5] = none ∧
    assemble .standard .mov [.imm 5, .reg .r0] = none := by decide
theorem test_table_word : decodeTableWord 32 0x0100001E = some (.pop .sr 0 1) ∧ decodeTableWord 32 0x18 = none := by decide

/-! ### One step of each instruction -/

/-- M1. -/
theorem test_mov_imm : after (step (loaded [.mov .ri 5 0])) (fun s => (s.r0, s.pc)) = some (5, 1) := by decide
/-- M12: the source is resolved before the protected destination. -/
theorem test_mov_order : after (step (loaded [.mov .rr 9 6])) faultOf = some (some (.invalidRegister, 0)) := by decide
/-- A4 with R0 = 100: 200, flags 0 0 1. -/
theorem test_add_overflow : after (exec (.add .rr 0 0) { loaded [] with r0 := 100 }) (fun s => (s.r0, flags s)) =
    some (200, false, false, true) := by decide
/-- 2.2: 0xFF + 1 is 0 with ZF and CF. -/
theorem test_add_wraps : after (exec (.add .ri 1 0) { loaded [] with r0 := 255 }) (fun s => (s.r0, flags s)) =
    some (0, true, true, false) := by decide
/-- A2: 0 − 5. -/
theorem test_sub_borrow : after (exec (.sub .ri 5 0) (loaded [])) (fun s => (s.r0, flags s)) =
    some (0xFB, false, true, false) := by decide
/-- 2.2: 0x7F − 0xFF is 0x80 with CF and OF. -/
theorem test_sub_overflow : after (exec (.sub .ri 0xFF 0) { loaded [] with r0 := 0x7F }) (fun s => (s.r0, flags s)) =
    some (0x80, false, true, true) := by decide
/-- 2.2: 16 · 16. -/
theorem test_mul_wraps : after (exec (.mul .rr 0 0) { loaded [] with r0 := 16 }) (fun s => (s.r0, flags s)) =
    some (0, true, true, true) := by decide
/-- 2.2: 15 · 17 is 255, no flag. -/
theorem test_mul_fits : after (exec (.mul .ri 17 0) { loaded [] with r0 := 15 }) (fun s => (s.r0, flags s)) =
    some (0xFF, false, false, false) := by decide
/-- 2.3: −5 against 2. -/
theorem test_cmp_less : after (exec (.cmp .ri 2 0) { loaded [] with r0 := 0xFB }) flags = some (false, false, true) := by decide
/-- C2: a flag slot is a legal destination of CMP. -/
theorem test_cmp_flag_dest : after (exec (.cmp .ri 0 6) (loaded [])) flags = some (true, false, false) := by decide
/-- S3: SP is read before the decrement. -/
theorem test_push_sp : after (exec (.push .sr 0 4) (loaded [])) (fun s => (s.sp, memRead 254 s)) = some (254, 255) := by decide
/-- S12: the operand is resolved before the overflow test. -/
theorem test_push_order : after (exec (.push .sr 0 9) { loaded [] with sp := 0 }) faultOf =
    some (some (.invalidRegister, 0)) := by decide
/-- S13: POP SP, the popped value wins. -/
theorem test_pop_sp : after (exec (.pop .sr 0 4) { loaded [] with sp := 254, stack := [(254, 100)] }) (·.sp) =
    some 100 := by decide
/-- S9: the pop's increment persists behind the fault. -/
theorem test_pop_partial : after (exec (.pop .sr 0 9) { loaded [] with pc := 1, sp := 254, stack := [(254, 7)] })
    (fun s => (s.sp, faultOf s)) = some (255, some (.invalidRegister, 1)) := by decide
/-- B1's jump: the last instruction is a legal target, with no increment after it. -/
theorem test_jmp_last : after (exec (.jmp .si 0 2) { loaded [.jmp .si 0 2, .jmp .si 0 2, .jmp .si 0 2] with pc := 1 }) (·.pc) =
    some 2 := by decide
/-- B3: a target equal to `len` faults. -/
theorem test_jmp_end : after (step (loaded [.jmp .si 0 1])) faultOf = some (some (.invalidJumpTarget, 0)) := by decide
/-- P2's taken branch. -/
theorem test_be_taken : after (exec (.be .si 0 4) { loaded (List.replicate 5 (.be .si 0 4)) with pc := 2, zf := true }) (·.pc) =
    some 4 := by decide
/-- B5: not taken, the bad register id is not looked at. -/
theorem test_be_not_taken : after (step (loaded [.be .sr 0 77])) (fun s => (s.pc, faultOf s)) = some (1, none) := by decide
/-- B6: taken from reset, and the target is bad. -/
theorem test_bne_bad_target : after (step (loaded [.bne .si 0 200])) faultOf = some (some (.invalidJumpTarget, 0)) := by decide
/-- P3's loop end: ZF set, not taken. -/
theorem test_bne_not_taken : after (exec (.bne .si 0 1) { loaded [] with pc := 3, zf := true }) (·.pc) = some 4 := by decide
/-- O4. -/
theorem test_print_imm : after (exec (.print .si 0 200) (loaded [])) (·.out) = some [-56] := by decide
/-- P4: PRINT of 0xFB after earlier output. -/
theorem test_print_appends : after (exec (.print .sr 0 0) { loaded [] with r0 := 0xFB, out := [1] }) (·.out) =
    some [1, -5] := by decide

/-! ### The loop, the load and the host's side -/

/-- W4: the increment wraps after a write of 255 to PC. -/
theorem test_pc_wraps : after (exec (.mov .ri 255 3) { loaded [] with pc := 2 }) (·.pc) = some 0 := by decide
/-- A6: ADD PC, 1 at index 0. -/
theorem test_add_pc : after (exec (.add .ri 1 3) (loaded [])) (·.pc) = some 2 := by decide
/-- L1. -/
theorem test_empty_program_halts : after (step (bootWords [])) (·.run) = some .halted := by decide
/-- 2.6: the first failing word is reported. -/
theorem test_first_bad_word : faultOf (bootWords [0x00050005, 0, 0x30]) = some (.unknownOpcode, 1) := by decide
/-- The host's fetch word runs as the first instruction after reset, as if started with it. -/
theorem test_withFetchWord_is_start :
    State.withFetchWord State.reset 32 0x0700001B = bootWords [0x0700001B] ∧
    after (step (State.withFetchWord State.reset 32 0x0700001B)) (fun s => (s.sp, memRead 254 s)) = some (254, 7) := by decide
/-- The fetch word at a PC past the store's end, at PC 255, and a word that does not decode. -/
theorem test_withFetchWord_edges :
    after (step (State.withFetchWord { State.reset with pc := 3 } 32 0x00050005)) (fun s => (s.r0, s.pc)) = some (5, 4) ∧
    after (step (State.withFetchWord { State.reset with pc := 255 } 32 0x00050005)) (·.r0) = some 5 ∧
    faultOf (State.withFetchWord State.reset 32 0) = some (.unknownOpcode, 0) := by decide
theorem test_codes : ([Cause.unknownOpcode, .illegalMode, .invalidRegister, .protectedRegister, .stackOverflow,
    .stackUnderflow, .invalidJumpTarget, .programTooLarge, .internalInvariant].map Cause.code) = [1, 2, 3, 4, 5, 6, 7, 8, 9] ∧
    Cause.illegalMode.kind = .decodeError ∧ Cause.programTooLarge.kind = .runtimeError := by decide

/-! ### Other values of the parameters (R7) -/

/-- The document's count of ten slots (C1): identifier 9 is then a slot, zero at reset, that holds what is written to it. -/
theorem test_nreg_ten :
    after (execWith { Config.standard with nreg := 10 } (.mov .ri 7 9) State.reset) (fun s => (s.read (.spare 9), faultOf s)) =
      some (7, none) ∧
    after (execWith { Config.standard with nreg := 10 } (.mov .rr 9 0) { State.reset with r0 := 5 }) (·.r0) = some 0 := by decide
/-- D6's alternative: a write to a flag slot passes as a no-op. -/
theorem test_flag_write_ignored :
    after (execWith { Config.standard with flagWrite := .ignore } (.mov .ri 1 6) State.reset) (fun s => (s.zf, s.pc, faultOf s)) =
      some (false, 1, none) := by decide
/-- D7's cautious variant: the increment after a write of 255 to PC is refused. -/
theorem test_pc_wrap_refused :
    (match execWith { Config.standard with pcWrap := .refuse } (.mov .ri 255 3) State.reset with
      | .refused .pcWouldWrap => true
      | _ => false) = true := by decide
/-- U12: a second start, and a start after one of the empty program, is no transition. -/
theorem test_start_once : (hostStart .standard [] .ready).bind (hostStart .standard [0x00050005]) = none := by decide
/-- R250: SP is readable after reset before start, and not once the machine runs. -/
theorem test_peek_before_start : hostPeek .standard 4 .ready = some 255 ∧
    (hostStart .standard [] .ready).bind (hostPeek .standard 4) = none := by decide

/-! ### Witnesses: the hypotheses of each statement met together -/

/-- A small program of one well-formed record repeated. -/
def nops (n : Nat) : List Instr := List.replicate n (.mov .rr 0 0)

theorem nops_wf (n : Nat) : ∀ i ∈ nops n, i.wf = true := fun i h => by
  rw [List.eq_of_mem_replicate h]
  rfl

theorem reads_r0 (s : State) : Reads .rr 0 s s.r0 := .inl ⟨.inl rfl, .r0, rfl, rfl⟩
theorem reads_of (s : State) : Reads .sr 8 s (s.get .of) := .inl ⟨.inr rfl, .of, rfl, rfl⟩
theorem reads_ri (v : Byte) (s : State) : Reads .ri v s v := .inr ⟨.inl rfl, rfl⟩
theorem reads_si (v : Byte) (s : State) : Reads .si v s v := .inr ⟨.inr rfl, rfl⟩

theorem reset_inv : State.reset.Inv := ⟨rfl, rfl, by decide, nofun, nofun, by decide, nofun, nofun⟩

theorem witness_ResetSatisfiesTheInvariant : Memory.wf [(0, 1), (255, 7)] = true := by decide
theorem witness_LoadTakesAtMost255Records : Config.standard.enc.Injective ∧
    ((∀ i ∈ nops 255, i.wf = true) ∧ (nops 255).length ≤ 255) ∧ ((∀ i ∈ nops 256, i.wf = true) ∧ 255 < (nops 256).length) :=
  ⟨standard_injective, ⟨nops_wf 255, Nat.le_of_eq List.length_replicate⟩, nops_wf 256, by rw [nops, List.length_replicate]; decide⟩
theorem witness_FirstUndecodableWordIsReported : Config.standard.enc.Injective ∧
    (∀ i ∈ nops 1, i.wf = true) ∧ decodeWith Config.standard.enc 0 = .error .unknownOpcode ∧
    decodeWith Config.standard.enc 0x1F = .error .illegalMode :=
  ⟨standard_injective, nops_wf 1, by decide⟩
theorem witness_StartIsAllowedOnlyRightAfterReset :
    hostStart .standard [] .ready = some (.started State.reset) ∧
    (∃ q, hostStep .standard .ready = .next q) ∧
    ((Port.started (loaded (nops 1))).state .standard).prog ≠ [] ∧
    ((Port.started { State.reset with pc := 1 }).state .standard).pc ≠ 0 ∧
    ((Port.started { State.reset with run := .halted }).state .standard).run ≠ .running :=
  ⟨rfl, ⟨_, rfl⟩, by decide⟩
theorem witness_HostSeesTheEndOfARunOnly : Config.standard.Ok ∧
    State.reset.run = .running ∧ { State.reset with run := .halted }.run = .halted ∧
    ((State.atFault State.reset .stackUnderflow).run = .faulted ∧
      (State.atFault State.reset .stackUnderflow).fault = some { cause := .stackUnderflow, index := 0 }) ∧
    (State.atFault State.reset .stackUnderflow).run ≠ .running ∧
    Config.standard.nreg ≤ (9 : Byte).toNat := ⟨standard_ok, by decide⟩
theorem witness_StepRunsTheRecordAtPc :
    (loaded (nops 1)).run = .running ∧ (loaded (nops 1)).prog[(loaded (nops 1)).pc.toNat]? = some (.mov .rr 0 0) := by decide
theorem witness_StepRunsTheDecodedWord : ∃ s t : State,
    hostStart { Config.standard with stackInit := [(7, 1)] } [0x00050005, 0x00000004] .ready = some (.started s) ∧ s.run = .running ∧ t.prog = s.prog ∧
    t.run = .running ∧ [(0x00050005 : Word), 0x00000004][t.pc.toNat]? = some 0x00000004 ∧
    decodeWith .standard 0x00000004 = .ok (.mov .rr 0 0) :=
  ⟨{ State.resetWith [(7, 1)] with prog := [.mov .ri 5 0, .mov .rr 0 0] },
    { State.resetWith [(7, 1)] with pc := 1, prog := [.mov .ri 5 0, .mov .rr 0 0] }, by decide⟩
theorem witness_PcAtOrPastTheEndHalts :
    { loaded (nops 1) with pc := 1 }.run = .running ∧ { loaded (nops 1) with pc := 1 }.prog.length ≤
      { loaded (nops 1) with pc := 1 }.pc.toNat := by decide
theorem witness_FinalStatesStayAsTheyAre :
    { State.reset with run := .halted }.run ≠ .running ∧ (State.atFault State.reset .stackOverflow).run ≠ .running := by decide
theorem witness_HaltedIsReachedOnlyByTheBoundTest :
    (∃ t, step State.reset = .next t ∧ t.run = .halted) ∧ (∃ t, step (loaded (nops 1)) = .next t ∧ t.run = .running) ∧
    (∃ t, step (loaded [.pop .sr 0 0]) = .next t ∧ t.run = .faulted) :=
  ⟨⟨_, rfl, rfl⟩, ⟨_, rfl, rfl⟩, ⟨_, rfl, rfl⟩⟩
theorem witness_ProgramStoreNeverChanges : ∃ t, step (loaded (nops 2)) = .next t := ⟨_, rfl⟩
theorem witness_EveryStepKeepsTheInvariant : State.reset.Inv ∧ ∃ t, step State.reset = .next t := ⟨reset_inv, _, rfl⟩
theorem witness_EveryStepOfTheInvariantHasANextState : State.reset.Inv := reset_inv
theorem witness_FaultsArePreciseAndKeepNothingButPop :
    (∃ t, (loaded [.mov .rr 9 0]).run = .running ∧ step (loaded [.mov .rr 9 0]) = .next t ∧ t.run = .faulted) ∧
    (∃ t, { loaded [.pop .sr 0 9] with sp := 254 }.run = .running ∧ step { loaded [.pop .sr 0 9] with sp := 254 } = .next t ∧
      t.run = .faulted ∧ { loaded [.pop .sr 0 9] with sp := 254 }.sp ≠ 255) ∧
    (∃ t, (loaded [.pop .sr 0 9]).run = .running ∧ step (loaded [.pop .sr 0 9]) = .next t ∧ t.run = .faulted ∧
      (loaded [.pop .sr 0 9]).sp = 255) :=
  ⟨⟨_, rfl, rfl, rfl⟩, ⟨_, rfl, rfl, rfl, by decide⟩, ⟨_, rfl, rfl, rfl, rfl⟩⟩
theorem witness_EachCauseComesFromItsInstructions :
    (∃ t, step (loaded [.mov .ri 1 6]) = .next t ∧ t.run = .faulted ∧ t.fault = some { cause := .protectedRegister, index := 0 }) ∧
    (∃ t, step { loaded [.push .si 0 1] with sp := 0 } = .next t ∧ t.run = .faulted ∧
      t.fault = some { cause := .stackOverflow, index := 0 }) ∧
    (∃ t, step (loaded [.pop .sr 0 0]) = .next t ∧ t.run = .faulted ∧ t.fault = some { cause := .stackUnderflow, index := 0 }) ∧
    (∃ t, step { loaded [.be .si 0 1] with zf := true } = .next t ∧ t.run = .faulted ∧
      t.fault = some { cause := .invalidJumpTarget, index := 0 }) ∧
    (∃ t, step { loaded [.pop .sr 0 9] with sp := 254 } = .next t ∧ t.run = .faulted ∧
      t.fault = some { cause := .invalidRegister, index := 0 }) ∧
    (∃ t, step (loaded [.bne .sr 0 9]) = .next t ∧ t.run = .faulted ∧ t.fault = some { cause := .invalidRegister, index := 0 }) :=
  ⟨⟨_, rfl, rfl, rfl⟩, ⟨_, rfl, rfl, rfl⟩, ⟨_, rfl, rfl, rfl⟩, ⟨_, rfl, rfl, rfl⟩, ⟨_, rfl, rfl, rfl⟩, ⟨_, rfl, rfl, rfl⟩⟩
theorem witness_IllFormedRecordsAreRefused : (Instr.pop .si 0 0).wf = false := by decide
theorem witness_RegisterAccessorsCheckAndWrite :
    Config.standard.nreg ≤ (9 : Byte).toNat ∧ Config.standard.Ok ∧ Config.standard.flagWrite = .fault ∧
    { Config.standard with flagWrite := .ignore }.Ok ∧ { Config.standard with flagWrite := .ignore }.flagWrite = .ignore ∧
    Reg.of = .of ∧ (Reg.bp ≠ .zf ∧ Reg.bp ≠ .cf ∧ Reg.bp ≠ .of) ∧
    ((9 : Byte).toNat < { Config.standard with nreg := 10 }.nreg ∧
      (∀ r, (9 : Byte) ≠ { Config.standard with nreg := 10 }.enc.regid r) ∧ Memory.wf State.reset.spare = true) :=
  ⟨by decide, standard_ok, rfl, standard_ok, rfl, rfl, by decide, by decide, fun r => by cases r <;> decide, rfl⟩
theorem witness_ResolverTellsRegisterFromLiteral :
    9 ≤ (9 : Byte).toNat ∧ (8 : Byte) = regValue .of ∧ (8 : Byte).toNat < 9 ∧ Mode.ri = .ri := by decide
theorem witness_StackOperationsCheckThenMove :
    Memory.wf [(254, (7 : Byte))] = true ∧ { State.reset with sp := 0 }.sp = 0 ∧ { State.reset with sp := 1 }.sp ≠ 0 ∧
    State.reset.sp = 255 ∧ { State.reset with sp := 254 }.sp ≠ 255 := by decide
theorem witness_CellWrittenReadsBack : Memory.wf { State.reset with stack := [(254, 7)] }.stack = true ∧ (0 : Byte) ≠ 254 := by
  decide
theorem witness_PcWritersCheckAndWrap :
    (loaded (nops 2)).prog.length ≤ (2 : Byte).toNat ∧ (1 : Byte).toNat < (loaded (nops 2)).prog.length ∧
    { loaded (nops 2) with pc := 255 }.pc = 255 ∧ { Config.standard with pcWrap := .refuse }.pcWrap = .refuse ∧
    Config.standard.pcWrap = .wrap ∧ (loaded (nops 2)).pc ≠ 255 := by decide
theorem witness_MovCopiesItsSource :
    Reads .rr 0 State.reset State.reset.r0 ∧ Reads .ri 251 State.reset 251 ∧ Reg.pc.isFlag = false ∧ Reg.bp.isFlag = false :=
  ⟨reads_r0 _, reads_ri _ _, rfl, rfl⟩
theorem witness_AddWritesTheSum : Reads .rr 0 State.reset State.reset.r0 ∧ Reads .ri 255 State.reset 255 ∧ Reg.r0.isFlag = false :=
  ⟨reads_r0 _, reads_ri _ _, rfl⟩
theorem witness_SubWritesTheDifference : Reads .rr 0 State.reset State.reset.r0 ∧ Reads .ri 128 State.reset 128 ∧ Reg.sp.isFlag = false :=
  ⟨reads_r0 _, reads_ri _ _, rfl⟩
theorem witness_MulWritesTheLowProduct : Reads .rr 0 State.reset State.reset.r0 ∧ Reads .ri 16 State.reset 16 ∧ Reg.r2.isFlag = false :=
  ⟨reads_r0 _, reads_ri _ _, rfl⟩
theorem witness_CmpSetsTheFlagsOnly : Reads .rr 0 State.reset State.reset.r0 ∧ Reads .ri 128 State.reset 128 :=
  ⟨reads_r0 _, reads_ri _ _⟩
theorem witness_PushStoresBelowTheTop :
    Reads .sr 8 { State.reset with sp := 1 } (State.get { State.reset with sp := 1 } .of) ∧ Reads .si 7 State.reset 7 ∧
    { State.reset with sp := 1 }.sp ≠ 0 ∧ State.reset.sp ≠ 0 ∧ Memory.wf State.reset.stack = true :=
  ⟨reads_of _, reads_si _ _, by decide⟩
theorem witness_PopLoadsTheTop : Reg.pc.isFlag = false ∧ Reg.sp.isFlag = false ∧ { State.reset with sp := 254 }.sp ≠ 255 := by
  decide
theorem witness_JmpLandsOnItsTarget :
    Reads .si 1 (loaded (nops 2)) 1 ∧ (1 : Byte).toNat < (loaded (nops 2)).prog.length ∧
    Reads .sr 8 (loaded (nops 2)) ((loaded (nops 2)).get .of) ∧ ((loaded (nops 2)).get .of).toNat < (loaded (nops 2)).prog.length :=
  ⟨reads_si _ _, by decide, reads_of _, by decide⟩
theorem witness_BeFollowsTheZeroFlag :
    ({ loaded (nops 2) with zf := true }.zf = true ∧ Reads .si 1 { loaded (nops 2) with zf := true } 1 ∧
      (1 : Byte).toNat < { loaded (nops 2) with zf := true }.prog.length) ∧ (loaded (nops 2)).zf = false :=
  ⟨⟨rfl, reads_si _ _, by decide⟩, rfl⟩
theorem witness_BneFollowsTheClearZeroFlag :
    ((loaded (nops 2)).zf = false ∧ Reads .si 1 (loaded (nops 2)) 1 ∧ (1 : Byte).toNat < (loaded (nops 2)).prog.length) ∧
      { loaded (nops 2) with zf := true }.zf = true :=
  ⟨⟨rfl, reads_si _ _, by decide⟩, rfl⟩
theorem witness_PrintAppendsTheSignedValue : Reads .si 128 State.reset 128 ∧ Reads .sr 8 State.reset (State.reset.get .of) :=
  ⟨reads_si _ _, reads_of _⟩
theorem witness_MovFaultsInOrder :
    9 ≤ (9 : Byte).toNat ∧ OperandOk .rr 8 ∧ OperandOk .ri 255 ∧ 6 ≤ (6 : Byte).toNat ∧ (8 : Byte).toNat ≤ 8 :=
  ⟨by decide, .inr (.inr (by decide)), .inl rfl, by decide⟩
theorem witness_ArithmeticFaultsInOrder :
    (Instr.add .rr 9 9).opcode = .add ∧ (Instr.sub .ri 0 9).opcode = .sub ∧ (Instr.mul .rr 8 6).opcode = .mul ∧
    (Instr.add .rr 9 9).mode = .rr ∧ 9 ≤ (Instr.add .rr 9 9).dest.toNat ∧ 9 ≤ (Instr.add .rr 9 9).src.toNat ∧
    OperandOk (Instr.mul .rr 8 6).mode (Instr.mul .rr 8 6).src ∧ 6 ≤ (Instr.mul .rr 8 6).dest.toNat ∧
    (Instr.mul .rr 8 8).dest.toNat ≤ 8 :=
  ⟨rfl, rfl, rfl, rfl, by decide, by decide, .inr (.inr (by decide)), by decide, by decide⟩
theorem witness_CmpAndPrintFaultOnABadRegister : Mode.ri = .ri ∧ 9 ≤ (9 : Byte).toNat ∧ Mode.sr = .sr := by decide
theorem witness_PushFaultsInOrder :
    9 ≤ (9 : Byte).toNat ∧ OperandOk .sr 8 ∧ OperandOk .si 255 ∧ { State.reset with sp := 0 }.sp = 0 :=
  ⟨by decide, .inr (.inr (by decide)), .inr (.inl rfl), rfl⟩
theorem witness_PopFaultsInOrderAndKeepsItsIncrement :
    State.reset.sp = 255 ∧ { State.reset with sp := 254 }.sp ≠ 255 ∧ 9 ≤ (9 : Byte).toNat ∧ 6 ≤ (6 : Byte).toNat ∧
    (8 : Byte).toNat ≤ 8 := by decide
theorem witness_TakenTransfersFaultInOrder :
    (Instr.jmp .sr 0 9).opcode = .jmp ∧ 9 ≤ (Instr.jmp .sr 0 9).dest.toNat ∧
    ((Instr.be .si 0 1).opcode = .be ∧ { loaded (nops 1) with zf := true }.zf = true) ∧
    ((Instr.bne .si 0 1).opcode = .bne ∧ (loaded (nops 1)).zf = false) ∧
    Reads .si 1 (loaded (nops 1)) 1 ∧ (loaded (nops 1)).prog.length ≤ (1 : Byte).toNat :=
  ⟨rfl, by decide, ⟨rfl, rfl⟩, ⟨rfl, rfl⟩, reads_si _ _, by decide⟩
theorem witness_FlagsChangeOnlyByArithmeticAndCompare : ∃ t, step (loaded [.cmp .ri 0 0]) = .next t ∧ ¬ SameFlags (loaded [.cmp .ri 0 0]) t :=
  ⟨_, rfl, fun h => absurd h.1 (by decide)⟩
theorem witness_RegistersChangeOnlyAsDestinations :
    (∃ t, step (loaded [.mov .ri 5 5]) = .next t ∧ t.get .bp ≠ (loaded [.mov .ri 5 5]).get .bp) ∧
    (∃ t, step (loaded [.push .si 0 5]) = .next t ∧ t.get .sp ≠ (loaded [.push .si 0 5]).get .sp) :=
  ⟨⟨_, rfl, by decide⟩, ⟨_, rfl, by decide⟩⟩
theorem witness_CellsChangeOnlyByPush : Memory.wf (loaded [.push .si 0 5]).stack = true ∧
    ∃ t, step (loaded [.push .si 0 5]) = .next t ∧ memRead 254 t ≠ memRead 254 (loaded [.push .si 0 5]) :=
  ⟨rfl, _, rfl, by decide⟩
theorem witness_PrintChannelOnlyGrows : ∃ t, step (loaded [.print .si 0 128]) = .next t ∧ t.out = [-128] := ⟨_, rfl, by decide⟩
theorem witness_OnlyTransfersLandWithoutIncrement :
    (∃ t, (loaded [.jmp .si 0 0]).run = .running ∧ (loaded [.jmp .si 0 0]).prog[(0 : Nat)]? = some (.jmp .si 0 0) ∧
      step (loaded [.jmp .si 0 0]) = .next t ∧ t.run = .running) ∧
    (∃ t, step (loaded [.be .sr 0 77]) = .next t ∧ t.run = .running ∧ t.pc = 1) :=
  ⟨⟨_, rfl, rfl, rfl, rfl⟩, ⟨_, rfl, rfl, rfl⟩⟩
theorem witness_TopCellIsNeverObserved :
    Memory.wf (loaded [.push .si 0 5]).stack = true ∧ Memory.wf [(255, (9 : Byte))] = true ∧
    (∀ a : Byte, a ≠ 255 → readCell [(255, (9 : Byte))] a.toNat = readCell (loaded [.push .si 0 5]).stack a.toNat) ∧
    ∃ t, step (loaded [.push .si 0 5]) = .next t := by
  refine ⟨rfl, by decide, fun a h => ?_, _, rfl⟩
  have : ¬ a.toNat = 255 := fun e => h (BitVec.eq_of_toNat_eq e)
  simp only [readCell, if_neg this]
  rfl
theorem witness_PushesThenPopsReverse : Memory.wf State.reset.stack = true ∧ (List.replicate 255 (1 : Byte)).length ≤ State.reset.sp.toNat :=
  ⟨rfl, by rw [List.length_replicate]; decide⟩
/-- Other numbers and names for the same two records: R0 is identifier 5, and BP 0. -/
def swapped : Config :=
  { Config.standard with
    enc := { Encoding.standard with
      opc := fun o => opcodeValue o + 20
      regid := fun r => match r with
        | .r0 => 5
        | .bp => 0
        | r => regValue r }
    pcWrap := .refuse
    flagWrite := .ignore }
theorem swapped_ok : swapped.Ok := by
  refine ⟨⟨fun a b => ?_, fun a b => ?_, fun a b => ?_⟩, fun r => ?_⟩
  · cases a <;> cases b <;> decide
  · cases a <;> cases b <;> decide
  · cases a <;> cases b <;> decide
  · cases r <;> decide
theorem witness_ParametersMatterOnlyInTheirOwnCases :
    Config.standard.enc.Injective ∧ swapped.enc.Injective ∧ swapped.stackInit = Config.standard.stackInit ∧
    (∀ i ∈ nops 1, i.wf = true) ∧ slotOf .standard 1 = slotOf swapped 1 ∧ slotOf .standard 0 = slotOf swapped 5 ∧
    (Config.standard.pcWrap = { Config.standard with nreg := 10 }.pcWrap ∧
      Config.standard.flagWrite = { Config.standard with nreg := 10 }.flagWrite) ∧
    State.reset.pc ≠ 255 ∧ (∀ r, slotOf .standard 0 = some (.named r) → r ≠ .pc ∧ r.isFlag = false) :=
  ⟨standard_injective, swapped_ok.1, rfl, nops_wf 1, by decide, by decide, ⟨rfl, rfl⟩, by decide, fun r => by cases r <;> decide⟩
theorem witness_DecodeOfEncodeIsTheRecord : Encoding.standard.Injective ∧ (Instr.pop .sr 0xAB 255).wf = true :=
  ⟨standard_injective, by decide⟩
theorem witness_EncodeOfDecodeIsTheWord : decodeWith .standard 0x12345605 = .ok (.mov .ri 0x34 0x12) := by decide
theorem witness_DecodeFailsForItsTwoCausesOnly :
    Encoding.standard.Injective ∧ decodeWith .standard 0xFF = .error .unknownOpcode ∧ decodeWith .standard 0x2C = .error .illegalMode :=
  ⟨standard_injective, by decide, by decide⟩
theorem witness_ModeAcceptanceTable : decodeWith .standard 0x00000004 = .ok (.mov .rr 0 0) := by decide
theorem witness_ImagesReadBackAsWords : [(5 : Byte), 0, 5, 0, 5].length % 4 ≠ 0 := by decide

end Sys2Proof.Tests
end

section
/-! The load of encoded records, and the execution of a record under two configurations (`00_scope.md` R7, R9): settles
O60. -/

namespace Sys2Proof.Machine

/-! ### Loading the words of well-formed records -/

/-- R90, R96: the decoder reads a well-formed record back from its word. -/
theorem decodeWith_encodeWith {E : Encoding} (hE : E.Injective) (rsvd : Byte) {i : Instr} (hi : i.wf = true) :
    decodeWith E (encodeWith E rsvd i) = .ok i := by
  have ha : i.opcode.accepts i.mode = true := hi
  simp only [decodeWith, encodeWith_eq_join, fieldOpcode_join, fieldMode_join, fieldSrc_join, fieldDest_join,
    opcodeOf_opc hE, modeOf_modev hE, ha, if_true, registry_fields]

theorem decodeStream_map_encodeWith {E : Encoding} (hE : E.Injective) (rsvd : Byte) (recs : List Instr)
    (h : ∀ i ∈ recs, i.wf = true) (k : Nat) : decodeStream E (recs.map (encodeWith E rsvd)) k = .ok recs := by
  induction recs generalizing k with
  | nil => rfl
  | cons i is ih =>
    obtain ⟨hi, his⟩ := List.forall_mem_cons.1 h
    simp only [List.map_cons, decodeStream, decodeWith_encodeWith hE rsvd hi, ih his]

/-- R120: a start with the words of well-formed records loads those records into the machine as reset left it. -/
theorem hostStart_map_encodeWith {c : Config} (hE : c.enc.Injective) (rsvd : Byte) (recs : List Instr)
    (h : ∀ i ∈ recs, i.wf = true) :
    hostStart c (recs.map (encodeWith c.enc rsvd)) .ready = some (.started (loadProgram recs (State.resetOf c))) := by
  simp only [hostStart, loadWords, decodeStream_map_encodeWith hE rsvd recs h]

/-! ### The execution of a record, before the loop looks at its outcome -/

/-- What a record's meaning hands to `runRecord`; tied to the model by `execWith_eq_runRecord`. -/
def execution (c : Config) (i : Instr) (s : State) : Execution :=
  match i with
  | .mov m src dest =>
    orRaise s (resolve c m src s) fun v => orRaise s (regWrite c dest v s) fun s' => .done .next s'
  | .add m src dest => arithmetic c aluAdd m src dest s
  | .sub m src dest => arithmetic c aluSub m src dest s
  | .mul m src dest => arithmetic c aluMul m src dest s
  | .cmp m src dest =>
    orRaise s (regRead c dest s) fun a => orRaise s (resolve c m src s) fun b =>
      .done .next (updateCmpFlags (a.toInt - b.toInt) s)
  | .push m _ dest => orRaise s (resolve c m dest s) fun v => orRaise s (stackPush v s) fun s' => .done .next s'
  | .pop _ _ dest => orRaise s (stackPop s) fun p => orRaise p.2 (regWrite c dest p.1 p.2) fun s' => .done .next s'
  | .jmp m _ dest => transfer c m dest s
  | .be m _ dest => if s.zf then transfer c m dest s else .done .next s
  | .bne m _ dest => if s.zf then .done .next s else transfer c m dest s
  | .print m _ dest => orRaise s (resolve c m dest s) fun v => .done .next (emit v s)

theorem execWith_eq_runRecord (c : Config) (i : Instr) (s : State) :
    execWith c i s = runRecord c i.opcode i.mode (execution c i s) := by cases i <;> rfl

/-! ### An execution that ends in Next moves PC only through its destination -/

/-- A chain of operations that is done has passed each of its operations. -/
theorem orRaise_done {α : Type} {s t : State} {r : Except Cause α} {go : α → Execution} {o : StepOutcome}
    (h : orRaise s r go = .done o t) : ∃ v, r = .ok v ∧ go v = .done o t := by
  cases r with
  | error k => cases h
  | ok v => exact ⟨v, rfl, h⟩

theorem regWrite_pc_of_ne {c : Config} {id v : Byte} {s t : State} (h : regWrite c id v s = .ok t)
    (hd : slotOf c id ≠ some (.named .pc)) : t.pc = s.pc := by
  rcases regWrite_cases c id v s with ⟨-, e⟩ | ⟨d, -, -, e⟩ | ⟨d, hs, -, e⟩
  · rw [e] at h
    cases h
  · rw [e] at h
    cases h
  · rw [e] at h
    cases h
    exact write_pc_of_ne s d v fun hpc => hd (by rw [hs, hpc])

theorem stackPush_pc {v : Byte} {s t : State} (h : stackPush v s = .ok t) : t.pc = s.pc := by
  rcases stackPush_cases v s with ⟨-, e⟩ | ⟨-, e⟩ <;> rw [e] at h <;> cases h
  rfl

theorem stackPop_pc {s : State} {p : Byte × State} (h : stackPop s = .ok p) : p.2.pc = s.pc := by
  rcases stackPop_cases s with ⟨-, e⟩ | ⟨-, e⟩ <;> rw [e] at h <;> cases h
  rfl

theorem arithmetic_next_pc {c : Config} {alu : Byte → Byte → AluResult} {m : Mode} {src dest : Byte} {s t : State}
    (h : arithmetic c alu m src dest s = .done .next t) (hd : slotOf c dest ≠ some (.named .pc)) : t.pc = s.pc := by
  obtain ⟨a, -, h⟩ := orRaise_done h
  obtain ⟨b, -, h⟩ := orRaise_done h
  obtain ⟨u, hw, h⟩ := orRaise_done h
  cases h
  have hpc : u.pc = s.pc := regWrite_pc_of_ne hw hd
  exact hpc

/-- R200, R203: a taken transfer never ends in Next. -/
theorem transfer_ne_next (c : Config) (m : Mode) (dest : Byte) (s t : State) : transfer c m dest s ≠ .done .next t := by
  intro h
  obtain ⟨a, -, h⟩ := orRaise_done h
  obtain ⟨u, -, h⟩ := orRaise_done h
  cases h

theorem execution_next_pc {c : Config} {i : Instr} {s t : State} (h : execution c i s = .done .next t)
    (hd : i.opcode ∈ writers → slotOf c i.dest ≠ some (.named .pc)) : t.pc = s.pc := by
  cases i with
  | mov m src dest =>
    obtain ⟨v, -, h⟩ := orRaise_done h
    obtain ⟨u, hw, h⟩ := orRaise_done h
    cases h
    exact regWrite_pc_of_ne hw (hd (by decide : Opcode.mov ∈ writers))
  | add m src dest => exact arithmetic_next_pc h (hd (by decide : Opcode.add ∈ writers))
  | sub m src dest => exact arithmetic_next_pc h (hd (by decide : Opcode.sub ∈ writers))
  | mul m src dest => exact arithmetic_next_pc h (hd (by decide : Opcode.mul ∈ writers))
  | cmp m src dest =>
    obtain ⟨a, -, h⟩ := orRaise_done h
    obtain ⟨b, -, h⟩ := orRaise_done h
    cases h
    rfl
  | push m src dest =>
    obtain ⟨v, -, h⟩ := orRaise_done h
    obtain ⟨u, hp, h⟩ := orRaise_done h
    cases h
    exact stackPush_pc hp
  | pop m src dest =>
    obtain ⟨p, hp, h⟩ := orRaise_done h
    obtain ⟨u, hw, h⟩ := orRaise_done h
    cases h
    exact (regWrite_pc_of_ne hw (hd (by decide : Opcode.pop ∈ writers))).trans (stackPop_pc hp)
  | jmp m src dest => exact absurd h (transfer_ne_next c m dest s t)
  | be m src dest =>
    cases hz : s.zf <;> simp only [execution, hz, Bool.false_eq_true, if_false, if_true] at h
    · cases h
      rfl
    · exact absurd h (transfer_ne_next c m dest s t)
  | bne m src dest =>
    cases hz : s.zf <;> simp only [execution, hz, Bool.false_eq_true, if_false, if_true] at h
    · exact absurd h (transfer_ne_next c m dest s t)
    · cases h
      rfl
  | print m src dest =>
    obtain ⟨v, -, h⟩ := orRaise_done h
    cases h
    rfl

/-! ### The loop under two configurations -/

theorem advance_congr {c c' : Config} (h : c.pcWrap = c'.pcWrap) (s : State) : advance c s = advance c' s := by
  simp only [advance, h]

/-- `PC_WRAP` matters to the loop only for an execution that ends in Next with PC at 255 (R125). -/
theorem finish_congr {c c' : Config} {e : Execution}
    (h : c.pcWrap = c'.pcWrap ∨ ∀ t, e = .done .next t → t.pc ≠ 255) : finish c e = finish c' e := by
  match e with
  | .done .jumped t => rfl
  | .raise k t => rfl
  | .done .next t =>
    change advance c t = advance c' t
    rcases h with h | h
    · exact advance_congr h t
    · rw [advance_of_ne c t (h t rfl), advance_of_ne c' t (h t rfl)]

/-! ### Operations under two configurations -/

/-- The operand bytes of a record in mode `m` name the same slots under both configurations, or are the same
immediates. -/
structure SameOperands (c c' : Config) (m : Mode) (src dest src' dest' : Byte) : Prop where
  src_slot : m = .rr → slotOf c src = slotOf c' src'
  src_imm : m = .ri → src = src'
  dest_slot : m ≠ .si → slotOf c dest = slotOf c' dest'
  dest_imm : m = .si → dest = dest'

/-- Both configurations agree whether the generic write to the slot `id` names is protected (R27). -/
def SameProtection (c c' : Config) (id : Byte) : Prop := ∀ d, slotOf c id = some d → protects c d = protects c' d

theorem regRead_congr {c c' : Config} {id id' : Byte} (h : slotOf c id = slotOf c' id') (s : State) :
    regRead c id s = regRead c' id' s := by simp only [regRead, h]

theorem regWrite_congr {c c' : Config} {id id' : Byte} (h : slotOf c id = slotOf c' id') (hp : SameProtection c c' id)
    (v : Byte) (s : State) : regWrite c id v s = regWrite c' id' v s := by
  cases hd : slotOf c id with
  | none => rw [regWrite_of_none v s hd, regWrite_of_none v s (h.symm.trans hd)]
  | some d => simp only [regWrite, hd, h.symm.trans hd, hp d hd]

theorem protects_of_not_isFlag {c : Config} {d : Slot} (h : d.isFlag = false) : protects c d = false := by
  cases hp : protects c d with
  | false => rfl
  | true => exact absurd (protects_isFlag hp) (by rw [h]; nofun)

theorem sameProtection_of_flagWrite {c c' : Config} (h : c.flagWrite = c'.flagWrite) (id : Byte) :
    SameProtection c c' id := fun d _ => by simp only [protects, h]

/-- `FLAG_WRITE` does not matter where no flag slot is written. -/
theorem sameProtection_of_not_isFlag {c : Config} (c' : Config) {id : Byte}
    (h : ∀ r, slotOf c id = some (.named r) → r.isFlag = false) : SameProtection c c' id := by
  intro d hd
  have hf : d.isFlag = false := by
    cases d with
    | named r => exact h r hd
    | spare id => rfl
  rw [protects_of_not_isFlag hf, protects_of_not_isFlag hf]

/-- The modes a one-operand opcode accepts. -/
theorem one_operand_mode {o : Opcode} {m : Mode} (ho : o.accepts .rr = false) (ho' : o.accepts .ri = false)
    (h : o.accepts m = true) : m = .sr ∨ m = .si := by
  cases m
  · rw [ho] at h
    cases h
  · rw [ho'] at h
    cases h
  · exact .inl rfl
  · exact .inr rfl

section
variable {c c' : Config} {m : Mode} {src dest src' dest' : Byte} (h : SameOperands c c' m src dest src' dest')
include h

theorem SameOperands.resolve_src (hm : m = .rr ∨ m = .ri) (s : State) : resolve c m src s = resolve c' m src' s := by
  obtain rfl | rfl := hm
  · exact regRead_congr (h.src_slot rfl) s
  · rw [h.src_imm rfl]
    rfl

theorem SameOperands.resolve_dest (hm : m = .sr ∨ m = .si) (s : State) : resolve c m dest s = resolve c' m dest' s := by
  obtain rfl | rfl := hm
  · exact regRead_congr (h.dest_slot nofun) s
  · rw [h.dest_imm rfl]
    rfl

theorem SameOperands.dest_slot_of_two (hm : m = .rr ∨ m = .ri) : slotOf c dest = slotOf c' dest' :=
  h.dest_slot (by rcases hm with rfl | rfl <;> nofun)

theorem SameOperands.arithmetic_eq (hm : m = .rr ∨ m = .ri) (hp : SameProtection c c' dest)
    (alu : Byte → Byte → AluResult) (s : State) : arithmetic c alu m src dest s = arithmetic c' alu m src' dest' s := by
  simp only [arithmetic, h.resolve_src hm, regRead_congr (h.dest_slot_of_two hm),
    regWrite_congr (h.dest_slot_of_two hm) hp]

theorem SameOperands.transfer_eq (hm : m = .sr ∨ m = .si) (s : State) :
    transfer c m dest s = transfer c' m dest' s := by simp only [transfer, h.resolve_dest hm]

/-- The configuration enters an execution through its operands and the protection of its destination alone. -/
theorem SameOperands.execution_eq {o : Opcode} (ha : o.accepts m = true) (hp : o ∈ writers → SameProtection c c' dest)
    (s : State) : execution c (registry o m src dest) s = execution c' (registry o m src' dest') s := by
  cases o with
  | mov =>
    have hm := two_operand_mode (o := .mov) rfl rfl ha
    simp only [registry, execution, h.resolve_src hm, regWrite_congr (h.dest_slot_of_two hm) (hp (by decide))]
  | add => exact h.arithmetic_eq (two_operand_mode (o := .add) rfl rfl ha) (hp (by decide)) aluAdd s
  | sub => exact h.arithmetic_eq (two_operand_mode (o := .sub) rfl rfl ha) (hp (by decide)) aluSub s
  | mul => exact h.arithmetic_eq (two_operand_mode (o := .mul) rfl rfl ha) (hp (by decide)) aluMul s
  | cmp =>
    have hm := two_operand_mode (o := .cmp) rfl rfl ha
    simp only [registry, execution, h.resolve_src hm, regRead_congr (h.dest_slot_of_two hm)]
  | push =>
    simp only [registry, execution, h.resolve_dest (one_operand_mode (o := .push) rfl rfl ha)]
  | pop =>
    have hm : m ≠ .si := by
      rintro rfl
      cases ha
    simp only [registry, execution, regWrite_congr (h.dest_slot hm) (hp (by decide))]
  | jmp => exact h.transfer_eq (one_operand_mode (o := .jmp) rfl rfl ha) s
  | be => simp only [registry, execution, h.transfer_eq (one_operand_mode (o := .be) rfl rfl ha)]
  | bne => simp only [registry, execution, h.transfer_eq (one_operand_mode (o := .bne) rfl rfl ha)]
  | print => simp only [registry, execution, h.resolve_dest (one_operand_mode (o := .print) rfl rfl ha)]

/-- A record executes the same under both configurations when they agree on the protection of the slot it writes and, if
it can reach the increment with PC at 255, on `PC_WRAP`. -/
theorem SameOperands.execWith_eq {o : Opcode} {s : State} (hp : o ∈ writers → SameProtection c c' dest)
    (hpc : c.pcWrap = c'.pcWrap ∨ (s.pc ≠ 255 ∧ (o ∈ writers → slotOf c dest ≠ some (.named .pc)))) :
    execWith c (registry o m src dest) s = execWith c' (registry o m src' dest') s := by
  simp only [execWith_eq_runRecord, registry_opcode, registry_mode]
  cases ha : o.accepts m
  · rw [runRecord_rejected _ ha, runRecord_rejected _ ha]
  · rw [runRecord_of_accepts _ ha, runRecord_of_accepts _ ha, ← h.execution_eq ha hp s]
    refine finish_congr (hpc.imp_right ?_)
    rintro ⟨hs, hd⟩ t ht
    rw [execution_next_pc ht (by simpa only [registry_opcode, registry_dest] using hd)]
    exact hs

end

/-- Settles O60: the load gives back the records under either numbering, and an execution sees its configuration only
through the slots of its operands, the protection of its destination and the increment at PC = 255. -/
theorem parametersMatterOnlyInTheirOwnCases : Obligations.ParametersMatterOnlyInTheirOwnCases := by
  unfold Obligations.ParametersMatterOnlyInTheirOwnCases
  intro c c'
  constructor
  · intro rsvd recs hE hE' hinit hwf
    rw [hostStart_map_encodeWith hE rsvd recs hwf, hostStart_map_encodeWith hE' rsvd recs hwf, State.resetOf,
      State.resetOf, hinit]
  · intro o m src dest src' dest' s hss hsi hds hdi hpar
    have hops : SameOperands c c' m src dest src' dest' := ⟨hss, hsi, hds, hdi⟩
    rcases hpar with ⟨hwrap, hflag⟩ | ⟨hs, hdest⟩
    · exact hops.execWith_eq (fun _ => sameProtection_of_flagWrite hflag dest) (.inl hwrap)
    · exact hops.execWith_eq (fun ho => sameProtection_of_not_isFlag c' fun r hr => (hdest ho r hr).2)
        (.inr ⟨hs, fun ho hd => (hdest ho .pc hd).1 rfl⟩)

end Sys2Proof.Machine
end

section
/-! The state: what reset leaves, the register accessors, and what a record's effect changes of each part of the state
(`10_state.md` R20 to R39): settles O1, O2, O14, O19, O46, O47, O48 and O49. -/

namespace Sys2Proof.Machine

/-! ### Reset -/

/-- Settles O1: every field by its definition. -/
theorem resetLeavesTheListedValues : Obligations.ResetLeavesTheListedValues := by
  unfold Obligations.ResetLeavesTheListedValues
  refine ⟨fun stack => ?_, fun _ => rfl, fun _ _ => rfl, rfl⟩
  exact ⟨rfl, rfl, rfl, rfl, rfl, rfl, rfl, rfl, rfl, fun _ => rfl, rfl, rfl, rfl, rfl, rfl, rfl⟩

/-- Settles O2: everything but the stack is empty at reset, and the machine runs. -/
theorem resetSatisfiesTheInvariant : Obligations.ResetSatisfiesTheInvariant := fun _ hstack =>
  { stack_wf := hstack
    spare_wf := rfl
    prog_len := Nat.zero_le _
    prog_wf := nofun
    out_range := nofun
    fault_iff := ⟨nofun, nofun⟩
    no_missing_slot := nofun
    halted_past_end := nofun }

/-! ### The register accessors -/

theorem protects_of_fault {c : Config} (d : Slot) (h : c.flagWrite = .fault) : protects c d = d.isFlag := by
  simp only [protects, h]

theorem protects_of_ignore {c : Config} (d : Slot) (h : c.flagWrite = .ignore) : protects c d = false := by
  simp only [protects, h]

/-- A slot without a name is named by its own identifier alone (R28; log entry 3). -/
theorem slotOf_eq_spare {c : Config} {id id' : Byte} (h : slotOf c id' = some (.spare id)) : id' = id := by
  unfold slotOf at h
  split at h
  · cases h
  · split at h <;> cases h
    rfl

theorem isFlag_eq_true {r : Reg} (h : r = .zf ∨ r = .cf ∨ r = .of) : r.isFlag = true := by
  rcases h with rfl | rfl | rfl <;> rfl

theorem isFlag_eq_false {r : Reg} (hz : r ≠ .zf) (hc : r ≠ .cf) (ho : r ≠ .of) : r.isFlag = false := by
  cases r with
  | zf => exact absurd rfl hz
  | cf => exact absurd rfl hc
  | of => exact absurd rfl ho
  | r0 | r1 | r2 | pc | sp | bp => rfl

theorem sameSlotsExcept_set (s : State) (r : Reg) (v : Byte) : SameSlotsExcept [r] s (s.set r v) :=
  ⟨fun r' hr' => get_set_other s r r' v (List.ne_of_not_mem_cons hr'), set_spare s r v⟩

theorem sameRun_set (s : State) (r : Reg) (v : Byte) : SameRun s (s.set r v) :=
  ⟨set_prog s r v, set_run s r v, set_fault s r v⟩

theorem sameSlotsExcept_flagWrite (z c o : Bool) (s : State) :
    SameSlotsExcept [.zf, .cf, .of] s (flagWrite z c o s) := by
  refine ⟨fun r hr => get_flagWrite s z c o r ?_, rfl⟩
  simp only [List.mem_cons, List.not_mem_nil, or_false, not_or] at hr
  obtain ⟨hz, hc, ho⟩ := hr
  exact isFlag_eq_false hz hc ho

/-- R27, R29: the generic write of a flag slot raises or, under `FLAG_WRITE` = ignore, changes nothing. -/
theorem regWrite_flag_slot {c : Config} (hc : c.Ok) {r : Reg} (hr : r.isFlag = true) (v : Byte) (s : State) :
    (c.flagWrite = .fault → regWrite c (c.enc.regid r) v s = .error .protectedRegister) ∧
      (c.flagWrite = .ignore → regWrite c (c.enc.regid r) v s = .ok s) := by
  have hslot := slotOf_regid hc r
  constructor
  · intro hw
    exact regWrite_of_protected v s hslot ((protects_of_fault _ hw).trans hr)
  · intro hw
    rw [regWrite_of_slot v s hslot (protects_of_ignore _ hw), write_flag s (.named r) v hr]

/-- R29: the generic write of a named slot that is no flag writes it. -/
theorem regWrite_named_slot {c : Config} (hc : c.Ok) {r : Reg} (hr : r.isFlag = false) (v : Byte) (s : State) :
    regWrite c (c.enc.regid r) v s = .ok (s.set r v) :=
  regWrite_of_slot v s (slotOf_regid hc r) (protects_of_not_isFlag hr)

/-- An identifier below `NREG` without a name holds what is written to it, and the write is seen at no other identifier
(R29; log entry 3). -/
theorem regWrite_spare_slot {c : Config} {id : Byte} (v : Byte) {s : State} (hslot : slotOf c id = some (.spare id))
    (hw : Memory.wf s.spare = true) :
    regWrite c id v s = .ok (s.write (.spare id) v) ∧ regRead c id (s.write (.spare id) v) = .ok v ∧
      ∀ id', id' ≠ id → regRead c id' (s.write (.spare id) v) = regRead c id' s := by
  refine ⟨regWrite_of_slot v s hslot (protects_of_not_isFlag rfl), ?_, fun id' hid => ?_⟩
  · rw [regRead_of_slot _ hslot, read_write_spare_self s id v hw]
  · cases hd : slotOf c id' with
    | none => rw [regRead_of_none _ hd, regRead_of_none _ hd]
    | some d =>
      have hne : d ≠ .spare id := fun e => hid (slotOf_eq_spare (hd.trans (congrArg some e)))
      rw [regRead_of_slot _ hd, regRead_of_slot _ hd, read_write_spare_other s id v d hw hne]

/-- Settles O19: an identifier names no slot, a named slot or a slot of its own, and each accessor is its raw operation
on that slot after the checks. -/
theorem registerAccessorsCheckAndWrite : Obligations.RegisterAccessorsCheckAndWrite := by
  unfold Obligations.RegisterAccessorsCheckAndWrite
  refine ⟨?_, ?_, ?_, ?_, standard_ok, rfl, rfl, eq_regValue_of_lt⟩
  · intro c id v s hid
    exact ⟨regRead_of_none s (slotOf_of_ge hid), regWrite_of_none v s (slotOf_of_ge hid)⟩
  · intro c r v s hc
    refine ⟨regRead_of_slot s (slotOf_regid hc r), fun hr => regWrite_flag_slot hc (isFlag_eq_true hr) v s, ?_⟩
    intro hz hcf ho
    have hr := isFlag_eq_false hz hcf ho
    exact ⟨s.set r v, regWrite_named_slot hc hr v s, get_set_self s r v hr, sameSlotsExcept_set s r v, set_stack s r v,
      sameRun_set s r v, set_out s r v⟩
  · intro c id v s hlt hn hw
    obtain ⟨hwrite, hself, hother⟩ := regWrite_spare_slot v (slotOf_spare hlt hn) hw
    exact ⟨s.write (.spare id) v, hwrite, hself, hother, rfl⟩
  · intro z c o s
    exact ⟨rfl, rfl, rfl, sameSlotsExcept_flagWrite z c o s, rfl, ⟨rfl, rfl, rfl⟩, rfl⟩

/-! ### What an effect changes, one part of the state at a time -/

section
variable {c : Config} {i : Instr} {s t : State}

theorem CanRaise.ne_internalInvariant {k : Cause} (h : CanRaise c i s k) : k ≠ .internalInvariant := by
  rintro rfl
  exact h

theorem PopCause.ne_internalInvariant {dest : Byte} {k : Cause} (h : PopCause c dest k) : k ≠ .internalInvariant := by
  rcases h with ⟨rfl, -⟩ | ⟨rfl, -⟩ <;> nofun

/-- R226, R72: the run goes on with the program store and the fault record as they were, or it ends in a fault that is not
the unreachable InternalInvariant. -/
theorem Effect.sameRun_or_atFault (h : Effect c i s t) :
    SameRun s t ∨ ∃ u k, SameRun s u ∧ k ≠ .internalInvariant ∧ t = u.atFault k := by
  cases h with
  | fault _ _ k hk => exact .inr ⟨s, k, ⟨rfl, rfl, rfl⟩, hk.ne_internalInvariant, rfl⟩
  | popFault m src dest _ k hk => exact .inr ⟨{ s with sp := s.sp + 1 }, k, ⟨rfl, rfl, rfl⟩, hk.ne_internalInvariant, rfl⟩
  | mov | alu | pop => left; simp [SameRun, afterWrite, updateFlags]
  | cmp | push | jump | notTaken | print => exact .inl ⟨rfl, rfl, rfl⟩

/-- R134: the flags are written by ADD, SUB, MUL and CMP alone. -/
theorem Effect.sameFlags (h : Effect c i s t) (hi : i.opcode ∉ [Opcode.add, .sub, .mul, .cmp]) : SameFlags s t := by
  cases h with
  | mov | pop => simp [SameFlags, afterWrite]
  | alu _ f d v _ hdest hd hi' =>
    refine absurd ?_ hi
    rcases hi' with ⟨e, -⟩ | ⟨e, -⟩ | ⟨e, -⟩ <;> rw [e] <;> decide
  | cmp => exact absurd (by simp [Instr.opcode]) hi
  | fault | popFault | push | jump | notTaken | print => exact ⟨rfl, rfl, rfl⟩

/-- R30, R62: the stack memory is written by PUSH alone, at the cell just below SP. -/
theorem Effect.stack_cases (h : Effect c i s t) :
    t.stack = s.stack ∨ (i.opcode = .push ∧ s.sp ≠ 0 ∧ ∃ v, t.stack = (memWrite (s.sp - 1) v s).stack) := by
  cases h with
  | push m src dest v _ hs => exact .inr ⟨rfl, hs, v, rfl⟩
  | mov | alu | pop => left; simp [afterWrite, updateFlags]
  | fault | popFault | cmp | jump | notTaken | print => exact .inl rfl

/-- The slots without a name are as a raw write leaves them, or as before. -/
theorem Effect.spare_cases (h : Effect c i s t) : t.spare = s.spare ∨ ∃ d v, t.spare = (s.write d v).spare := by
  cases h with
  | mov _ _ _ d v => exact .inr ⟨d, v, rfl⟩
  | alu _ f d v => exact .inr ⟨d, (f (s.read d) v).result, rfl⟩
  | pop _ _ _ d => exact .inr ⟨d, memRead s.sp s, by cases d <;> simp [afterWrite, State.write]⟩
  | fault | popFault | cmp | push | jump | notTaken | print => exact .inl rfl

/-- R33, R210: the print channel is written by PRINT alone, which appends the signed value of its operand. -/
theorem Effect.out_cases (h : Effect c i s t) :
    t.out = s.out ∨ (i.opcode = .print ∧ ∃ v, ReadsWith c i.mode i.dest s v ∧ t.out = s.out ++ [v.toInt]) := by
  cases h with
  | print m src dest v _ hv => exact .inr ⟨rfl, v, hv, rfl⟩
  | mov | alu | pop => left; simp [afterWrite, updateFlags]
  | fault | popFault | cmp | push | jump | notTaken => exact .inl rfl

theorem get_write_other (s : State) {d : Slot} {r : Reg} (v : Byte) (h : d ≠ .named r) :
    (s.write d v).get r = s.get r := by
  cases d with
  | named r' => exact get_set_other s r' r v fun e => h (by rw [e])
  | spare id => exact get_write_spare s id v r

/-- R20: a slot that is neither PC nor a flag is as before, unless the record writes its destination and names the slot
there, or the slot is SP and the record a PUSH or POP. -/
theorem Effect.get_eq (h : Effect c i s t) {r : Reg} (hpc : r ≠ .pc) (hf : r.isFlag = false)
    (hdest : i.opcode ∈ writers → slotOf c i.dest ≠ some (.named r))
    (hsp : r = .sp → i.opcode ≠ .push ∧ i.opcode ≠ .pop) : t.get r = s.get r := by
  have named {d : Slot} (hi : i.opcode ∈ writers) (hd : slotOf c i.dest = some d) : d ≠ .named r :=
    fun e => hdest hi (hd.trans (congrArg some e))
  cases h with
  | fault _ _ k => exact get_enterFault s k r
  | popFault m src dest _ k => exact get_set_other s .sp r _ fun e => (hsp e).2 rfl
  | mov m src dest d v _ hd =>
    exact (get_incrementPC _ r hpc).trans (get_write_other s v (named (by decide : Opcode.mov ∈ writers) hd))
  | alu _ f d v _ hd hp hi =>
    have hw : i.opcode ∈ writers := by rcases hi with ⟨e, -⟩ | ⟨e, -⟩ | ⟨e, -⟩ <;> rw [e] <;> decide
    exact (get_incrementPC _ r hpc).trans ((get_flagWrite _ _ _ _ r hf).trans (get_write_other s _ (named hw hd)))
  | cmp => exact (get_incrementPC _ r hpc).trans (get_flagWrite s _ _ _ r hf)
  | push m src dest v =>
    exact (get_incrementPC _ r hpc).trans ((get_memWrite _ _ _ r).trans (get_set_other s .sp r _ fun e => (hsp e).1 rfl))
  | pop m src dest d _ hd =>
    exact (get_incrementPC _ r hpc).trans ((get_write_other _ _ (named (by decide : Opcode.pop ∈ writers) hd)).trans
      (get_set_other s .sp r _ fun e => (hsp e).2 rfl))
  | jump _ v => exact get_set_other s .pc r v hpc
  | notTaken => exact get_incrementPC s r hpc
  | print m src dest v => exact (get_incrementPC _ r hpc).trans (get_emit s v r)

/-! ### The invariant -/

theorem toInt_byte_range (v : Byte) : -128 ≤ v.toInt ∧ v.toInt ≤ 127 := by
  have hlo := BitVec.le_toInt v
  have hhi := BitVec.toInt_lt (x := v)
  omega

theorem Effect.stack_wf (h : Effect c i s t) (hi : s.Inv) : Memory.wf t.stack = true := by
  rcases h.stack_cases with e | ⟨-, -, v, e⟩ <;> rw [e]
  · exact hi.stack_wf
  · exact memWrite_wf s (s.sp - 1) v hi.stack_wf

theorem Effect.spare_wf (h : Effect c i s t) (hi : s.Inv) : Memory.wf t.spare = true := by
  rcases h.spare_cases with e | ⟨d, v, e⟩ <;> rw [e]
  · exact hi.spare_wf
  · exact write_spare_wf s d v hi.spare_wf

theorem Effect.out_range (h : Effect c i s t) (hi : s.Inv) : ∀ x ∈ t.out, -128 ≤ x ∧ x ≤ 127 := by
  intro x hx
  rcases h.out_cases with e | ⟨-, v, -, e⟩ <;> rw [e] at hx
  · exact hi.out_range x hx
  · rcases List.mem_append.1 hx with hx | hx
    · exact hi.out_range x hx
    · rw [List.mem_singleton.1 hx]
      exact toInt_byte_range v

theorem SameRun.inv (h : SameRun s t) (hi : s.Inv) (hr : s.run = .running) (hstack : Memory.wf t.stack = true)
    (hspare : Memory.wf t.spare = true) (hout : ∀ x ∈ t.out, -128 ≤ x ∧ x ≤ 127) : t.Inv := by
  obtain ⟨hprog, hrun, hfault⟩ := h
  exact
    { stack_wf := hstack
      spare_wf := hspare
      prog_len := (len_eq_of_prog hprog).trans_le hi.prog_len
      prog_wf := by rw [hprog]; exact hi.prog_wf
      out_range := hout
      fault_iff := by rw [hfault, hrun]; exact hi.fault_iff
      no_missing_slot := by rw [hfault]; exact hi.no_missing_slot
      halted_past_end := by rw [hrun, hr]; nofun }

theorem State.Inv.atFault (hi : s.Inv) {k : Cause} (hk : k ≠ .internalInvariant) : (s.atFault k).Inv :=
  { stack_wf := hi.stack_wf
    spare_wf := hi.spare_wf
    prog_len := hi.prog_len
    prog_wf := hi.prog_wf
    out_range := hi.out_range
    fault_iff := ⟨fun _ => rfl, fun _ => rfl⟩
    no_missing_slot := by rintro f ⟨⟩; exact hk
    halted_past_end := nofun }

theorem State.Inv.halt (hi : s.Inv) (hr : s.run = .running) (hlen : s.len ≤ s.pc.toNat) :
    (haltRun s).Inv :=
  { stack_wf := hi.stack_wf
    spare_wf := hi.spare_wf
    prog_len := hi.prog_len
    prog_wf := hi.prog_wf
    out_range := hi.out_range
    fault_iff := ⟨fun e => absurd (hi.fault_iff.1 e) (by rw [hr]; nofun), nofun⟩
    no_missing_slot := hi.no_missing_slot
    halted_past_end := fun _ => hlen }

theorem Effect.inv (h : Effect c i s t) (hi : s.Inv) (hr : s.run = .running) : t.Inv := by
  have hstack := h.stack_wf hi
  have hspare := h.spare_wf hi
  have hout := h.out_range hi
  rcases h.sameRun_or_atFault with hrun | ⟨u, k, hrun, hk, rfl⟩
  · exact hrun.inv hi hr hstack hspare hout
  · exact (hrun.inv hi hr hstack hspare hout).atFault hk

theorem State.Inv.stepWith_next (hi : s.Inv) (h : stepWith c s = .next t) : t.Inv := by
  obtain ⟨-, rfl⟩ | ⟨hr, hlen, rfl⟩ | ⟨hr, -, i, -, -, -, -, he⟩ := stepWith_cases h
  · exact hi
  · exact hi.halt hr hlen
  · exact he.inv hi hr

end

/-- Settles O14: a step that runs a record has an effect, and an effect keeps each part of the invariant. -/
theorem everyStepKeepsTheInvariant : Obligations.EveryStepKeepsTheInvariant :=
  ⟨fun _ _ _ hi h => hi.stepWith_next h, fun s _ hi h => hi.stepWith_next ((stepWith_standard s).trans h)⟩

/-! ### What a step changes -/

/-- Settles O46: no other record's effect writes a flag, and a step that runs no record leaves the flags. -/
theorem flagsChangeOnlyByArithmeticAndCompare : Obligations.FlagsChangeOnlyByArithmeticAndCompare := by
  unfold Obligations.FlagsChangeOnlyByArithmeticAndCompare
  intro s t h hne
  obtain ⟨-, rfl⟩ | ⟨-, -, rfl⟩ | ⟨-, -, i, -, hi, -, -, he⟩ := step_cases h
  · exact absurd ⟨rfl, rfl, rfl⟩ hne
  · exact absurd ⟨rfl, rfl, rfl⟩ hne
  · exact ⟨i, hi, by_contra fun hop => hne (he.sameFlags hop)⟩

/-- Settles O47: the contrapositive of `Effect.get_eq`, with the destination's slot read back as its identifier. -/
theorem registersChangeOnlyAsDestinations : Obligations.RegistersChangeOnlyAsDestinations := by
  unfold Obligations.RegistersChangeOnlyAsDestinations
  intro s t r h hpc hf hne
  obtain ⟨-, rfl⟩ | ⟨-, -, rfl⟩ | ⟨-, -, i, -, hi, -, -, he⟩ := step_cases h
  · exact absurd rfl hne
  · exact absurd (get_haltRun s r) hne
  · refine ⟨i, hi, by_contra fun hno => hne (he.get_eq hpc hf ?_ ?_)⟩
    · intro hw hd
      obtain ⟨r', hr', e⟩ := slotOf_standard_some hd
      cases e
      exact hno (.inl ⟨hw, hr'⟩)
    · exact fun hr => ⟨fun hop => hno (.inr ⟨hr, .inl hop⟩), fun hop => hno (.inr ⟨hr, .inr hop⟩)⟩

/-- Settles O48: only a PUSH writes the stack memory, and a canonical memory reads as before at every cell but the one
written. -/
theorem cellsChangeOnlyByPush : Obligations.CellsChangeOnlyByPush := by
  unfold Obligations.CellsChangeOnlyByPush
  intro s t a hw h hne
  obtain ⟨-, rfl⟩ | ⟨-, -, rfl⟩ | ⟨-, -, i, -, hi, -, -, he⟩ := step_cases h
  · exact absurd rfl hne
  · exact absurd rfl hne
  · rcases he.stack_cases with e | ⟨hop, hsp, v, e⟩
    · exact absurd (memRead_of_stack a e) hne
    · refine ⟨i, hi, hop, hsp, by_contra fun ha => hne ?_⟩
      exact (memRead_of_stack a e).trans (memRead_memWrite_other s (s.sp - 1) a v hw ha)

/-- Settles O49: only a PRINT's effect writes the channel, by one append. -/
theorem printChannelOnlyGrows : Obligations.PrintChannelOnlyGrows := by
  unfold Obligations.PrintChannelOnlyGrows
  intro s t h
  obtain ⟨-, rfl⟩ | ⟨-, -, rfl⟩ | ⟨-, -, i, -, hi, -, -, he⟩ := step_cases h
  · exact .inl rfl
  · exact .inl rfl
  · rcases he.out_cases with e | ⟨hop, v, hv, e⟩
    · exact .inl e
    · exact .inr ⟨i, v, hi, hop, readsWith_standard.1 hv, e⟩

end Sys2Proof.Machine
end

section
/-! The stack memory, the program store and the program image (`20_memory.md` R60 to R74): settles O13, O21, O22, O51
and O59. -/

namespace Sys2Proof.Machine

/-! ### One cell, and the checked stack operations -/

/-- Settles O22: the memory laws at the cell written, at another cell, and for the canonical form. -/
theorem cellWrittenReadsBack : Obligations.CellWrittenReadsBack := fun a v s hw =>
  ⟨memRead_memWrite_self s a v hw, fun b hb => memRead_memWrite_other s a b v hw hb, memWrite_wf s a v hw⟩

theorem stackPush_of_zero (v : Byte) {s : State} (h : s.sp = 0) : stackPush v s = .error .stackOverflow := by
  rcases stackPush_cases v s with ⟨-, e⟩ | ⟨hs, -⟩
  · exact e
  · exact absurd h hs

theorem stackPush_of_ne (v : Byte) {s : State} (h : s.sp ≠ 0) :
    stackPush v s = .ok (memWrite (s.sp - 1) v (s.set .sp (s.sp - 1))) := by
  rcases stackPush_cases v s with ⟨hs, -⟩ | ⟨-, e⟩
  · exact absurd hs h
  · exact e

theorem stackPop_of_top {s : State} (h : s.sp = Config.stackTop) : stackPop s = .error .stackUnderflow := by
  rcases stackPop_cases s with ⟨-, e⟩ | ⟨hs, -⟩
  · exact e
  · exact absurd h hs

theorem stackPop_of_ne {s : State} (h : s.sp ≠ Config.stackTop) :
    stackPop s = .ok (memRead s.sp s, s.set .sp (s.sp + 1)) := by
  rcases stackPop_cases s with ⟨hs, -⟩ | ⟨-, e⟩
  · exact absurd hs h
  · exact e

theorem sameSlotsExcept_memWrite_set (s : State) (r : Reg) (a v w : Byte) :
    SameSlotsExcept [r] s (memWrite a v (s.set r w)) := by
  obtain ⟨hget, hspare⟩ := sameSlotsExcept_set s r w
  exact ⟨fun r' hr' => (get_memWrite _ a v r').trans (hget r' hr'), hspare⟩

/-- Settles O21: after its check each operation is one raw write of SP, and a push one cell write more. -/
theorem stackOperationsCheckThenMove : Obligations.StackOperationsCheckThenMove := by
  unfold Obligations.StackOperationsCheckThenMove
  intro v s hw
  refine ⟨stackPush_of_zero v, fun hs => ?_, stackPop_of_top, fun hs => ?_⟩
  · refine ⟨_, stackPush_of_ne v hs, rfl, memRead_memWrite_self _ _ v hw, fun a ha => ?_,
      sameSlotsExcept_memWrite_set s .sp _ v _, ⟨rfl, rfl, rfl⟩, rfl⟩
    exact memRead_memWrite_other (s.set .sp (s.sp - 1)) (s.sp - 1) a v hw ha
  · exact ⟨_, stackPop_of_ne hs, rfl, fun _ => rfl, sameSlotsExcept_set s .sp _, ⟨rfl, rfl, rfl⟩, rfl⟩

/-! ### The program store -/

theorem Effect.prog_eq {c : Config} {i : Instr} {s t : State} (h : Effect c i s t) : t.prog = s.prog := by
  rcases h.sameRun_or_atFault with ⟨hprog, -⟩ | ⟨u, k, ⟨hprog, -⟩, -, rfl⟩
  · exact hprog
  · exact hprog

theorem stepWith_prog {c : Config} {s t : State} (h : stepWith c s = .next t) : t.prog = s.prog := by
  obtain ⟨-, rfl⟩ | ⟨-, -, rfl⟩ | ⟨-, -, i, -, -, -, -, he⟩ := stepWith_cases h
  · rfl
  · rfl
  · exact he.prog_eq

/-- Settles O13: no effect of a record writes the store, and neither the halt nor a final state's step does. -/
theorem programStoreNeverChanges : Obligations.ProgramStoreNeverChanges := fun _ _ _ h =>
  ⟨stepWith_prog h, len_eq_of_prog (stepWith_prog h)⟩

/-! ### The program image -/

/-- R66: the four bytes of a word at the head of an image read back as that word. -/
theorem imageWords_bytesOfWord_append (o : WordOrder) (w : Word) (rest : List Byte) :
    imageWords o (bytesOfWord o w ++ rest) = (imageWords o rest).map (w :: ·) := by
  cases o with
  | little => simp only [bytesOfWord, List.cons_append, List.nil_append, imageWords, wordOfBytes_bytesOfWord_little]
  | big => simp only [bytesOfWord, List.cons_append, List.nil_append, imageWords, wordOfBytes_bytesOfWord_big]

theorem imageWords_wordsImage (o : WordOrder) (ws : List Word) : imageWords o (wordsImage o ws) = .ok ws := by
  induction ws with
  | nil => rfl
  | cons w ws ih =>
    calc imageWords o (wordsImage o (w :: ws))
        = (imageWords o (wordsImage o ws)).map (w :: ·) := imageWords_bytesOfWord_append o w (wordsImage o ws)
      _ = .ok (w :: ws) := by rw [ih]; rfl

/-- R237: the reader takes four bytes at a time and meets one, two or three at the end. -/
theorem imageWords_of_length (o : WordOrder) (bytes : List Byte) (h : bytes.length % 4 ≠ 0) :
    imageWords o bytes = .error .lengthNotMultipleOf4 := by
  induction bytes using imageWords.induct with
  | case1 => exact absurd rfl h
  | case2 b0 b1 b2 b3 rest ih =>
    have hrest : rest.length % 4 ≠ 0 := by simpa only [List.length_cons, Nat.add_assoc, Nat.add_mod_right] using h
    rw [imageWords, ih hrest]
    rfl
  | case3 | case4 | case5 => rfl

/-- Settles O59: the round trip is an induction on the words, the error one on the bytes, four at a time. -/
theorem imagesReadBackAsWords : Obligations.ImagesReadBackAsWords := ⟨imageWords_wordsImage, imageWords_of_length⟩

/-! ### Two runs that differ in cell 255 only

R62: the pair of states a noninterference argument carries along. `SameButTop b b'` holds of two states that are equal
but for cell 255 of the stack, which holds `b` in the first and `b'` in the second. Every operation of the machine keeps
it. -/

/-- Canonical memories that agree below cell 255, where the first holds `b` and the second `b'`. -/
structure TopApart (b b' : Byte) (m m' : Memory) : Prop where
  wf_left : Memory.wf m = true
  wf_right : Memory.wf m' = true
  below : ∀ a : Byte, a ≠ 255 → readCell m' a.toNat = readCell m a.toNat
  top_left : readCell m 255 = b
  top_right : readCell m' 255 = b'

/-- States equal but for their stack memories, which are `TopApart`. -/
inductive SameButTop (b b' : Byte) (s : State) : State → Prop where
  | mk (m' : Memory) (h : TopApart b b' s.stack m') : SameButTop b b' s { s with stack := m' }

/-- Two answers of an operation: the same cause, or values in the relation `P`. -/
inductive SameAnswer {α : Type} (P : α → α → Prop) : Except Cause α → Except Cause α → Prop where
  | error (k : Cause) : SameAnswer P (.error k) (.error k)
  | ok {v v' : α} (h : P v v') : SameAnswer P (.ok v) (.ok v')

/-- Two executions that end alike, in states the same but for cell 255. -/
inductive SameExecution (b b' : Byte) : Execution → Execution → Prop where
  | done (o : StepOutcome) {t t' : State} (h : SameButTop b b' t t') : SameExecution b b' (.done o t) (.done o t')
  | raise (k : Cause) {t t' : State} (h : SameButTop b b' t t') : SameExecution b b' (.raise k t) (.raise k t')

/-- Two outcomes of the loop: next states the same but for cell 255, or the same refusal. -/
inductive SameOutcome (b b' : Byte) : Host.Outcome State Fault Refusal → Host.Outcome State Fault Refusal → Prop where
  | next {t t' : State} (h : SameButTop b b' t t') : SameOutcome b b' (.next t) (.next t')
  | refused (r : Refusal) : SameOutcome b b' (.refused r) (.refused r)

section
variable {b b' : Byte} {c : Config} {s s' : State}

theorem toNat_ne_top {a : Byte} (h : a ≠ 255) : 255 ≠ a.toNat := fun e => h (BitVec.eq_of_toNat_eq e.symm)

/-- A write below cell 255 of the same value to both memories. -/
theorem TopApart.writeCell {m m' : Memory} (h : TopApart b b' m m') {a : Byte} (ha : a ≠ 255) (v : Byte) :
    TopApart b b' (writeCell m a.toNat v) (writeCell m' a.toNat v) where
  wf_left := writeCell_wf m a.toNat v a.isLt h.wf_left
  wf_right := writeCell_wf m' a.toNat v a.isLt h.wf_right
  below d hd := by
    by_cases hda : d = a
    · rw [hda, readCell_writeCell_self m _ v h.wf_left, readCell_writeCell_self m' _ v h.wf_right]
    · have hne : d.toNat ≠ a.toNat := fun e => hda (BitVec.eq_of_toNat_eq e)
      rw [readCell_writeCell_other m _ _ v h.wf_left hne, readCell_writeCell_other m' _ _ v h.wf_right hne, h.below d hd]
  top_left := (readCell_writeCell_other m _ _ v h.wf_left (toNat_ne_top ha)).trans h.top_left
  top_right := (readCell_writeCell_other m' _ _ v h.wf_right (toNat_ne_top ha)).trans h.top_right

/-! #### Reads and updates -/

/-- An update that does not look at the stack and does not write it. -/
theorem SameButTop.map (h : SameButTop b b' s s') (f : State → State)
    (hf : ∀ u m, f { u with stack := m } = { f u with stack := m }) : SameButTop b b' (f s) (f s') := by
  cases h with | mk m' hm =>
  have hstack : (f s).stack = s.stack := (congrArg State.stack (hf s s.stack) :)
  rw [hf s m']
  exact .mk m' (hstack ▸ hm)

theorem write_withStack (d : Slot) (v : Byte) (u : State) (m : Memory) :
    State.write { u with stack := m } d v = { u.write d v with stack := m } := by
  cases d with
  | named r => cases r <;> rfl
  | spare id => rfl

theorem SameButTop.read_eq (h : SameButTop b b' s s') (d : Slot) : s'.read d = s.read d := by
  cases h
  cases d with
  | named r => cases r <;> rfl
  | spare id => rfl

theorem SameButTop.sp_eq (h : SameButTop b b' s s') : s'.sp = s.sp := h.read_eq (.named .sp)

theorem SameButTop.pc_eq (h : SameButTop b b' s s') : s'.pc = s.pc := h.read_eq (.named .pc)

theorem SameButTop.zf_eq (h : SameButTop b b' s s') : s'.zf = s.zf := by cases h; rfl

theorem SameButTop.run_eq (h : SameButTop b b' s s') : s'.run = s.run := by cases h; rfl

theorem SameButTop.prog_eq (h : SameButTop b b' s s') : s'.prog = s.prog := by cases h; rfl

theorem SameButTop.memRead_eq (h : SameButTop b b' s s') {a : Byte} (ha : a ≠ 255) : memRead a s' = memRead a s := by
  cases h with | mk m' hm =>
  exact hm.below a ha

theorem SameButTop.memWrite (h : SameButTop b b' s s') {a : Byte} (ha : a ≠ 255) (v : Byte) :
    SameButTop b b' (memWrite a v s) (memWrite a v s') := by
  cases h with | mk m' hm =>
  exact .mk _ (hm.writeCell ha v)

/-! #### Operations -/

theorem SameButTop.regRead (h : SameButTop b b' s s') (id : Byte) :
    SameAnswer Eq (regRead c id s) (regRead c id s') := by
  rcases regRead_cases c id s with ⟨hd, e⟩ | ⟨d, hd, e⟩ <;> rw [e]
  · rw [regRead_of_none s' hd]
    exact .error _
  · rw [regRead_of_slot s' hd]
    exact .ok (h.read_eq d).symm

theorem SameButTop.resolve (h : SameButTop b b' s s') (m : Mode) (a : Byte) :
    SameAnswer Eq (resolve c m a s) (resolve c m a s') := by
  cases m with
  | rr | sr => exact h.regRead a
  | ri | si => exact .ok rfl

theorem SameButTop.regWrite (h : SameButTop b b' s s') (id v : Byte) :
    SameAnswer (SameButTop b b') (regWrite c id v s) (regWrite c id v s') := by
  rcases regWrite_cases c id v s with ⟨hd, e⟩ | ⟨d, hd, hp, e⟩ | ⟨d, hd, hp, e⟩ <;> rw [e]
  · rw [regWrite_of_none v s' hd]
    exact .error _
  · rw [regWrite_of_protected v s' hd hp]
    exact .error _
  · rw [regWrite_of_slot v s' hd hp]
    exact .ok (h.map (·.write d v) (write_withStack d v))

/-- A push writes the cell below SP, which SP ≠ 0 keeps away from 255. -/
theorem SameButTop.stackPush (h : SameButTop b b' s s') (v : Byte) :
    SameAnswer (SameButTop b b') (stackPush v s) (stackPush v s') := by
  by_cases hs : s.sp = 0
  · rw [stackPush_of_zero v hs, stackPush_of_zero v (h.sp_eq.trans hs)]
    exact .error _
  · have hcell : s.sp - 1 ≠ 255 := by bv_omega
    rw [stackPush_of_ne v hs, stackPush_of_ne v (h.sp_eq.trans_ne hs), h.sp_eq]
    exact .ok ((h.map (·.set .sp (s.sp - 1)) fun _ _ => rfl).memWrite hcell v)

/-- A pop reads the cell at SP, which its underflow check keeps away from 255. -/
theorem SameButTop.stackPop (h : SameButTop b b' s s') :
    SameAnswer (fun p p' => p.1 = p'.1 ∧ SameButTop b b' p.2 p'.2) (stackPop s) (stackPop s') := by
  by_cases hs : s.sp = Config.stackTop
  · rw [stackPop_of_top hs, stackPop_of_top (h.sp_eq.trans hs)]
    exact .error _
  · rw [stackPop_of_ne hs, stackPop_of_ne (h.sp_eq.trans_ne hs), h.sp_eq]
    exact .ok ⟨(h.memRead_eq hs).symm, h.map (·.set .sp (s.sp + 1)) fun _ _ => rfl⟩

theorem SameButTop.setPC (h : SameButTop b b' s s') (a : Byte) :
    SameAnswer (SameButTop b b') (setPC a s) (setPC a s') := by
  have hlen : s'.len = s.len := len_eq_of_prog h.prog_eq
  by_cases hs : s.len ≤ a.toNat
  · simp only [Machine.setPC, hlen, hs, if_true]
    exact .error _
  · simp only [Machine.setPC, hlen, hs, if_false]
    exact .ok (h.map (·.set .pc a) fun _ _ => rfl)

/-! #### Executions -/

/-- The rule of sequence: a raise leaves the state before it, and a value goes on in both runs. -/
theorem SameButTop.orRaise {α : Type} {P : α → α → Prop} {r r' : Except Cause α} {go go' : α → Execution}
    (h : SameButTop b b' s s') (hr : SameAnswer P r r') (hgo : ∀ v v', P v v' → SameExecution b b' (go v) (go' v')) :
    SameExecution b b' (orRaise s r go) (orRaise s' r' go') := by
  cases hr with
  | error k => exact .raise k h
  | ok hv => exact hgo _ _ hv

theorem SameButTop.arithmetic (h : SameButTop b b' s s') (alu : Byte → Byte → AluResult) (m : Mode) (src dest : Byte) :
    SameExecution b b' (arithmetic c alu m src dest s) (arithmetic c alu m src dest s') := by
  refine h.orRaise (h.regRead dest) ?_
  rintro x _ rfl
  refine h.orRaise (h.resolve m src) ?_
  rintro y _ rfl
  refine h.orRaise (h.regWrite dest _) fun u u' hu => ?_
  exact .done .next (hu.map (updateFlags _ _ _) fun _ _ => rfl)

theorem SameButTop.transfer (h : SameButTop b b' s s') (m : Mode) (dest : Byte) :
    SameExecution b b' (transfer c m dest s) (transfer c m dest s') := by
  refine h.orRaise (h.resolve m dest) ?_
  rintro x _ rfl
  exact h.orRaise (h.setPC x) fun u u' hu => .done .jumped hu

theorem SameButTop.execution (h : SameButTop b b' s s') (i : Instr) :
    SameExecution b b' (execution c i s) (execution c i s') := by
  cases i with
  | mov m src dest =>
    refine h.orRaise (h.resolve m src) ?_
    rintro x _ rfl
    exact h.orRaise (h.regWrite dest x) fun u u' hu => .done .next hu
  | add m src dest => exact h.arithmetic aluAdd m src dest
  | sub m src dest => exact h.arithmetic aluSub m src dest
  | mul m src dest => exact h.arithmetic aluMul m src dest
  | cmp m src dest =>
    refine h.orRaise (h.regRead dest) ?_
    rintro x _ rfl
    refine h.orRaise (h.resolve m src) ?_
    rintro y _ rfl
    exact .done .next (h.map (updateCmpFlags _) fun _ _ => rfl)
  | push m src dest =>
    refine h.orRaise (h.resolve m dest) ?_
    rintro x _ rfl
    exact h.orRaise (h.stackPush x) fun u u' hu => .done .next hu
  | pop m src dest =>
    refine h.orRaise h.stackPop ?_
    rintro ⟨x, u⟩ ⟨_, u'⟩ ⟨rfl, hu⟩
    exact hu.orRaise (hu.regWrite dest x) fun w w' hw => .done .next hw
  | jmp m src dest => exact h.transfer m dest
  | be m src dest =>
    simp only [Machine.execution, h.zf_eq]
    split
    · exact h.transfer m dest
    · exact .done .next h
  | bne m src dest =>
    simp only [Machine.execution, h.zf_eq]
    split
    · exact .done .next h
    · exact h.transfer m dest
  | print m src dest =>
    refine h.orRaise (h.resolve m dest) ?_
    rintro x _ rfl
    exact .done .next (h.map (emit x) fun _ _ => rfl)

/-! #### The loop -/

theorem SameButTop.incrementPC (h : SameButTop b b' s s') : SameButTop b b' (incrementPC s) (incrementPC s') :=
  h.map Machine.incrementPC fun _ _ => rfl

theorem SameButTop.advance (h : SameButTop b b' s s') : SameOutcome b b' (advance c s) (advance c s') := by
  rcases hc : c.pcWrap
  · rw [advance_of_wrap s hc, advance_of_wrap s' hc]
    exact .next h.incrementPC
  · simp only [Machine.advance, hc, h.pc_eq]
    split
    · exact .refused _
    · exact .next h.incrementPC

theorem SameExecution.finish {e e' : Execution} (h : SameExecution b b' e e') :
    SameOutcome b b' (finish c e) (finish c e') := by
  cases h with
  | done o h =>
    cases o with
    | next => exact h.advance
    | jumped => exact .next h
  | raise k h => exact .next (h.map (enterFault k) fun _ _ => rfl)

theorem SameButTop.execWith (h : SameButTop b b' s s') (i : Instr) :
    SameOutcome b b' (execWith c i s) (execWith c i s') := by
  rw [execWith_eq_runRecord, execWith_eq_runRecord]
  cases ha : i.opcode.accepts i.mode
  · rw [runRecord_rejected _ ha, runRecord_rejected _ ha]
    exact .refused _
  · rw [runRecord_of_accepts _ ha, runRecord_of_accepts _ ha]
    exact (h.execution i).finish

/-- R62: a step keeps two states the same but for cell 255. -/
theorem SameButTop.stepWith (h : SameButTop b b' s s') : SameOutcome b b' (stepWith c s) (stepWith c s') := by
  have hlen : s'.len = s.len := len_eq_of_prog h.prog_eq
  have hfetch : fetch s' = fetch s := by rw [fetch, fetch, h.prog_eq, h.pc_eq]
  simp only [Machine.stepWith, loopPass, h.run_eq, hlen, h.pc_eq, hfetch]
  split
  · split
    · exact .next (h.map haltRun fun _ _ => rfl)
    · split
      · exact h.execWith _
      · exact .next (h.map (enterFault .internalInvariant) fun _ _ => rfl)
  · exact .next h
  · exact .next h

end

/-- Settles O51: the pair of states is the same but for cell 255, the step keeps it so, and with it what either state
holds there. -/
theorem topCellIsNeverObserved : Obligations.TopCellIsNeverObserved := by
  unfold Obligations.TopCellIsNeverObserved
  intro s t stack' hw hw' hbelow h
  have hpair := SameButTop.stepWith (c := .standard) (.mk stack' ⟨hw, hw', hbelow, rfl, rfl⟩)
  rw [stepWith_standard, stepWith_standard, h] at hpair
  generalize step { s with stack := stack' } = o at hpair ⊢
  cases hpair with | next ht =>
  cases ht with | mk stack'' hm =>
  exact ⟨hm.top_left, stack'', rfl, hm.below, hm.top_right⟩

end Sys2Proof.Machine
end

section
/-! The decoder's answers and refusals, field by field (`30_encoding.md`): settles O53, O54, O55, O56 and O57. -/

namespace Sys2Proof.Machine

/-! ### What the decoder answers (R96) -/

/-- R96: all that an answered record says of its word, under any assignment, whether or not it names things apart. -/
theorem fields_of_decodeWith_ok {E : Encoding} {w : Word} {i : Instr} (h : decodeWith E w = .ok i) :
    E.opc i.opcode = fieldOpcode w ∧ E.modev i.mode = fieldMode w ∧ i.src = fieldSrc w ∧ i.dest = fieldDest w ∧
      i.wf = true := by
  unfold decodeWith at h
  split at h
  next => cases h
  next o ho =>
    split at h
    next => cases h
    next m hm =>
      split at h
      next ha =>
        cases h
        simpa [Instr.wf, ha] using And.intro (opcodeOf_some ho) (modeOf_some hm)
      next => cases h

/-- Settles O53: the round trip that O60's load of encoded records rests on. -/
theorem decodeOfEncodeIsTheRecord : Obligations.DecodeOfEncodeIsTheRecord := by
  unfold Obligations.DecodeOfEncodeIsTheRecord
  intro E rsvd i hE hi
  exact decodeWith_encodeWith hE rsvd hi

/-- Settles O54: the answered record holds each field of the word but the reserved byte, and a word is the join of its
fields. -/
theorem encodeOfDecodeIsTheWord : Obligations.EncodeOfDecodeIsTheWord := by
  unfold Obligations.EncodeOfDecodeIsTheWord
  intro E w i h
  obtain ⟨hopc, hmode, hsrc, hdest, hwf⟩ := fields_of_decodeWith_ok h
  refine ⟨hwf, ?_⟩
  rw [encodeWith_eq_join, hopc, hmode, hsrc, hdest, joinFields_fields]

/-! ### Why the decoder refuses (R96, R221) -/

theorem opcodeOf_eq_none_iff {E : Encoding} {f : BitVec 6} : opcodeOf E f = none ↔ ∀ o, E.opc o ≠ f := by
  simp [opcodeOf, List.find?_eq_none, opcode_mem_all]

theorem modeValue_surjective : Function.Surjective modeValue := by
  intro f
  have hsome : (modeOf .standard f).isSome := by revert f; decide
  obtain ⟨m, hm⟩ := Option.isSome_iff_exists.1 hsome
  exact ⟨m, modeOf_some hm⟩

/-- D2: the default assignment is a bijection of the four modes and the four values of two bits. -/
noncomputable def modeEquiv : Mode ≃ BitVec 2 :=
  .ofBijective modeValue ⟨fun a b => standard_injective.2.1 a b, modeValue_surjective⟩

/-- D2: an injective assignment of the four modes to two bits is onto. -/
theorem modev_surjective {E : Encoding} (hE : E.Injective) : Function.Surjective E.modev := by
  obtain ⟨-, hmodev, -⟩ := hE
  have : Finite Mode := .of_equiv _ modeEquiv.symm
  exact (Finite.injective_iff_surjective_of_equiv modeEquiv).1 fun a b => hmodev a b

/-- R96: the opcode field alone decides whether the opcode is unknown. -/
theorem decodeWith_eq_unknownOpcode_iff {E : Encoding} {w : Word} :
    decodeWith E w = .error .unknownOpcode ↔ opcodeOf E (fieldOpcode w) = none := by
  unfold decodeWith
  split
  next hnone => simp [hnone]
  next o ho =>
    rw [ho]
    split
    · simp
    · split <;> simp

/-- R96: a word whose opcode and mode fields have names is judged by the mode acceptance table alone. -/
theorem decodeWith_of_named {E : Encoding} (hE : E.Injective) {w : Word} {o : Opcode} {m : Mode}
    (ho : E.opc o = fieldOpcode w) (hm : E.modev m = fieldMode w) :
    decodeWith E w =
      if o.accepts m then .ok (registry o m (fieldSrc w) (fieldDest w)) else .error .illegalMode := by
  simp only [decodeWith, ← ho, ← hm, opcodeOf_opc hE, modeOf_modev hE]

/-- Settles O55: every mode field names a mode, so a known opcode is refused by the acceptance table or not at all. -/
theorem decodeFailsForItsTwoCausesOnly : Obligations.DecodeFailsForItsTwoCausesOnly := by
  unfold Obligations.DecodeFailsForItsTwoCausesOnly
  intro E w hE
  refine ⟨decodeWith_eq_unknownOpcode_iff.trans opcodeOf_eq_none_iff, fun h => ?_, ?_⟩
  · obtain ⟨m, hm⟩ := modev_surjective hE (fieldMode w)
    cases hopc : opcodeOf E (fieldOpcode w) with
    | none => simp [decodeWith_eq_unknownOpcode_iff.2 hopc] at h
    | some o =>
      have ho := opcodeOf_some hopc
      refine ⟨o, m, ho, hm, ?_⟩
      simpa [decodeWith_of_named hE ho hm] using h
  · rintro ⟨o, m, ho, hm, ha⟩
    simp [decodeWith_of_named hE ho hm, ha]

/-! ### The mode acceptance table and its count (R95, R99) -/

/-- Settles O56: the three rows and the count by the table, the decoder by the fields of what it answers. -/
theorem modeAcceptanceTable : Obligations.ModeAcceptanceTable := by
  unfold Obligations.ModeAcceptanceTable
  refine ⟨?_, ?_, ?_, by decide, ?_⟩
  · rintro o (rfl | rfl | rfl | rfl | rfl) m <;> cases m <;> decide
  · rintro o (rfl | rfl | rfl | rfl | rfl) m <;> cases m <;> decide
  · intro m
    cases m <;> decide
  · intro E w i h
    obtain ⟨-, -, -, -, hwf⟩ := fields_of_decodeWith_ok h
    exact hwf

theorem opcodeValue_lt_twelve (o : Opcode) : (opcodeValue o).toNat < 12 := by cases o <;> decide

/-- R99: the default opcode values end at 11, and `48 = 12 * 4` is the first low byte past them. -/
theorem decode_of_ge_48 {n : Nat} (hge : 48 ≤ n) (hlt : n < 256) :
    decode (BitVec.ofNat 32 n) = .error .unknownOpcode := by
  refine decodeWith_eq_unknownOpcode_iff.2 (opcodeOf_eq_none_iff.2 fun o ho => ?_)
  have hfield := congrArg BitVec.toNat ho
  rw [fieldOpcode, extract_toNat, BitVec.toNat_ofNat] at hfield
  have hvalue : (Encoding.standard.opc o).toNat < 12 := opcodeValue_lt_twelve o
  omega

/-- The low bytes whose decoding has a property: those below 48 by what each decodes to, the 208 others all or none. -/
theorem filter_decode_lowBytes (p : Except DecodeCause Instr → Bool) :
    ((List.range 256).filter fun n => p (decode (BitVec.ofNat 32 n))) =
      ((List.range 48).filter fun n => p (decode (BitVec.ofNat 32 n))) ++
        (List.range' 48 208).filter fun _ => p (.error .unknownOpcode) := by
  have hsplit : List.range 256 = List.range 48 ++ List.range' 48 208 := by
    rw [List.range_eq_range', List.range_eq_range', List.range'_append_1]
  rw [hsplit, List.filter_append]
  refine congrArg _ (List.filter_congr fun n hn => ?_)
  obtain ⟨hge, hlt⟩ := List.mem_range'_1.1 hn
  rw [decode_of_ge_48 hge hlt]

/-- Settles O57: the decoder run on each of the first 48 low bytes; the other 208 have an unknown opcode. -/
theorem lowByteClassesHaveTheStatedSizes : Obligations.LowByteClassesHaveTheStatedSizes := by
  unfold Obligations.LowByteClassesHaveTheStatedSizes
  refine ⟨?_, ?_, ?_⟩
  · rw [filter_decode_lowBytes fun r => r.toOption.isSome]
    decide
  · rw [filter_decode_lowBytes fun r => r == .error .illegalMode]
    decide
  · rw [filter_decode_lowBytes fun r => r == .error .unknownOpcode]
    simp only [beq_self_eq_true, List.filter_true, List.length_append, List.length_range']
    decide

end Sys2Proof.Machine
end

section
/-! The core pipeline (`40_core_pipeline.md` R120 to R132): the load, one pass of the dispatch loop and the shared
operations: settles O3, O4, O7, O8, O9, O10, O12, O15, O18, O20, O23, O24, O25 and O50. -/

namespace Sys2Proof.Machine

/-! ### The load -/

theorem loadProgram_of_le {recs : List Instr} (h : recs.length ≤ Config.maxProg) (s : State) :
    loadProgram recs s = { s with prog := recs } := if_neg (Nat.not_lt_of_le h)

theorem loadProgram_of_gt {recs : List Instr} (h : Config.maxProg < recs.length) (s : State) :
    loadProgram recs s = enterFault .programTooLarge s := if_pos h

/-- Settles O3: the words decode to the records, and the load then looks at their number; its fault has the PC of reset,
which is 0. -/
theorem loadTakesAtMost255Records : Obligations.LoadTakesAtMost255Records := by
  unfold Obligations.LoadTakesAtMost255Records
  intro c rsvd recs hE hwf
  rw [hostStart_map_encodeWith hE rsvd recs hwf]
  constructor
  · intro hle
    rw [loadProgram_of_le hle]
  · intro hgt
    rw [loadProgram_of_gt hgt]
    rfl

/-- R225: past words that decode, the first that does not is the one reported, whatever follows it. -/
theorem decodeStream_of_first_error {E : Encoding} (hE : E.Injective) (rsvd : Byte) {w : Word} {k : DecodeCause}
    (hw : decodeWith E w = .error k) (rest : List Word) (recs : List Instr)
    (hwf : ∀ i ∈ recs, i.wf = true) (n : Nat) :
    decodeStream E (recs.map (encodeWith E rsvd) ++ w :: rest) n =
      .error { cause := k, index := n + recs.length } := by
  induction recs generalizing n with
  | nil => simp only [List.map_nil, List.nil_append, decodeStream, hw, List.length_nil, Nat.add_zero]
  | cons i is ih =>
    obtain ⟨hi, his⟩ := List.forall_mem_cons.1 hwf
    have hindex : n + 1 + is.length = n + (i :: is).length := by rw [List.length_cons]; omega
    simp only [List.map_cons, List.cons_append, decodeStream, decodeWith_encodeWith hE rsvd hi, ih his, hindex]

/-- Settles O4: the decode of the stream ends at that word, and the load hands its cause and index on. -/
theorem firstUndecodableWordIsReported : Obligations.FirstUndecodableWordIsReported := by
  unfold Obligations.FirstUndecodableWordIsReported
  intro c recs w k rest hE hwf hw
  simp only [hostStart, loadWords, decodeStream_of_first_error hE 0 hw rest recs hwf 0, Nat.zero_add]
  cases k <;> rfl

/-- Decoding keeps the order of the stream: the record at an index is what the word at that index decodes to. -/
theorem getElem?_of_decodeStream {E : Encoding} {ws : List Word} {n : Nat} {recs : List Instr}
    (h : decodeStream E ws n = .ok recs) {k : Nat} {w : Word} {i : Instr} (hw : ws[k]? = some w)
    (hi : decodeWith E w = .ok i) : recs[k]? = some i := by
  induction ws generalizing n recs k with
  | nil => cases hw
  | cons w' ws ih =>
    simp only [decodeStream] at h
    split at h
    · cases h
    next r hr =>
      split at h
      · cases h
      next rs hrs =>
        cases h
        cases k with
        | zero =>
          cases hw
          exact congrArg some (Except.ok.inj (hr.symm.trans hi))
        | succ k => exact ih hrs hw

/-- R120, R122: a load that leaves the machine running has put in the store what the words decode to. -/
theorem decodeStream_of_loadWords_running {c : Config} {ws : List Word} {s : State}
    (h : (loadWords c ws s).run = .running) : decodeStream c.enc ws 0 = .ok (loadWords c ws s).prog := by
  cases hd : decodeStream c.enc ws 0 with
  | error e =>
    simp only [loadWords, hd] at h
    cases h
  | ok recs =>
    simp only [loadWords, hd] at h ⊢
    rcases Nat.lt_or_ge Config.maxProg recs.length with hgt | hle
    · rw [loadProgram_of_gt hgt] at h
      cases h
    · rw [loadProgram_of_le hle]

/-! ### One pass of the dispatch loop -/

theorem step_of_fetch {s : State} {i : Instr} (hr : s.run = .running) (h : s.prog[s.pc.toNat]? = some i) :
    step s = exec i s := by
  rw [← stepWith_standard, stepWith_of_fetch hr h, execWith_standard]

theorem stepWith_of_end (c : Config) {s : State} (hr : s.run = .running) (h : s.len ≤ s.pc.toNat) :
    stepWith c s = .next (haltRun s) := by simp only [stepWith, loopPass, hr, h, if_true]

theorem stepWith_of_over (c : Config) {s : State} (hr : s.over) : stepWith c s = .next s := by
  cases h : s.run with
  | running => exact absurd h hr
  | halted | faulted => simp only [stepWith, loopPass, h]

/-- Settles O7: below the program's end the loop fetches the record at PC, and the defaults are one configuration. -/
theorem stepRunsTheRecordAtPc : Obligations.StepRunsTheRecordAtPc :=
  ⟨fun _ _ => step_of_fetch, fun _ _ _ => stepWith_of_fetch, execWith_standard, stepWith_standard⟩

/-- Settles O8: the store keeps, at each index, what the word at that index decodes to. -/
theorem stepRunsTheDecodedWord : Obligations.StepRunsTheDecodedWord := by
  unfold Obligations.StepRunsTheDecodedWord
  intro c ws s t w i hstart hrun hprog htrun hw hi
  cases hstart
  have hfetch : t.prog[t.pc.toNat]? = some i := by
    rw [hprog]
    exact getElem?_of_decodeStream (decodeStream_of_loadWords_running hrun) hw hi
  exact ⟨stepWith_of_fetch htrun hfetch, step_of_fetch htrun hfetch⟩

/-- Settles O9: the halt test fails, and the halt writes the run state alone. -/
theorem pcAtOrPastTheEndHalts : Obligations.PcAtOrPastTheEndHalts := fun s hr hlen =>
  (stepWith_standard s).symm.trans (stepWith_of_end .standard hr hlen)

/-- Settles O10: the loop answers a state whose run is over unchanged. -/
theorem finalStatesStayAsTheyAre : Obligations.FinalStatesStayAsTheyAre := fun s hr =>
  (stepWith_standard s).symm.trans (stepWith_of_over .standard hr)

/-- R130: a record leaves the machine as it ran, or Faulted; none halts it. -/
theorem Effect.run_cases {c : Config} {i : Instr} {s t : State} (h : Effect c i s t) :
    t.run = s.run ∨ t.run = .faulted := by
  rcases h.sameRun_or_atFault with ⟨-, hrun, -⟩ | ⟨u, k, -, -, rfl⟩
  · exact .inl hrun
  · exact .inr rfl

/-- Settles O12: a final state stays, the failed halt test halts, and a record leaves Running or Faulted. -/
theorem haltedIsReachedOnlyByTheBoundTest : Obligations.HaltedIsReachedOnlyByTheBoundTest := by
  unfold Obligations.HaltedIsReachedOnlyByTheBoundTest
  intro c s t h
  obtain ⟨hr, rfl⟩ | ⟨hr, hlen, rfl⟩ | ⟨hr, hlt, i, -, -, -, -, he⟩ := stepWith_cases h
  · exact ⟨⟨.inl, fun h => h.resolve_right fun ⟨hrun, _⟩ => hr hrun⟩, id, .inl⟩
  · exact ⟨⟨fun _ => .inr ⟨hr, hlen⟩, fun _ => rfl⟩, nofun, nofun⟩
  · have hnot : ¬ (s.run = .halted ∨ s.run = .running ∧ s.len ≤ s.pc.toNat) := by
      rintro (hh | ⟨-, hge⟩)
      · rw [hr] at hh
        cases hh
      · omega
    have hne : t.run ≠ .halted := by
      rcases he.run_cases with e | e <;> rw [e]
      · rw [hr]
        nofun
      · nofun
    exact ⟨⟨fun hh => absurd hh hne, fun hh => absurd hh hnot⟩, fun _ => hr, fun _ => .inr ⟨hr, hlt⟩⟩

/-! ### Which steps have a next state -/

/-- R132: a well-formed record has a next state, but for the refused increment. -/
theorem execWith_next_or_pcWouldWrap (c : Config) {i : Instr} (s : State) (h : i.wf = true) :
    (∃ t, execWith c i s = .next t) ∨ (c.pcWrap = .refuse ∧ execWith c i s = .refused .pcWouldWrap) := by
  rw [execWith_eq_runRecord, runRecord_of_accepts _ h]
  exact (finish_cases c _).imp (fun hf => ⟨_, hf⟩) fun ⟨hc, _, hf⟩ => ⟨hc, hf⟩

theorem State.Inv.stepWith_next_or_pcWouldWrap {s : State} (hi : s.Inv) (c : Config) :
    (∃ t, stepWith c s = .next t) ∨ (c.pcWrap = .refuse ∧ stepWith c s = .refused .pcWouldWrap) := by
  by_cases hr : s.run = .running
  · rcases Nat.lt_or_ge s.pc.toNat s.prog.length with hlt | hge
    · rw [stepWith_of_fetch hr (List.getElem?_eq_getElem hlt)]
      exact execWith_next_or_pcWouldWrap c s (hi.prog_wf _ (List.getElem_mem hlt))
    · exact .inl ⟨_, stepWith_of_end c hr hge⟩
  · exact .inl ⟨_, stepWith_of_over c hr⟩

/-- Settles O15: every record of the store is well formed, and the default increment wraps. -/
theorem everyStepOfTheInvariantHasANextState : Obligations.EveryStepOfTheInvariantHasANextState := by
  unfold Obligations.EveryStepOfTheInvariantHasANextState
  refine ⟨fun s hi => ?_, fun c s hi => hi.stepWith_next_or_pcWouldWrap c⟩
  rw [← stepWith_standard]
  exact (hi.stepWith_next_or_pcWouldWrap .standard).resolve_right nofun

/-- Settles O18: every meaning asks first whether its opcode accepts the mode. -/
theorem illFormedRecordsAreRefused : Obligations.IllFormedRecordsAreRefused := by
  unfold Obligations.IllFormedRecordsAreRefused
  intro c i s h
  have refused (c : Config) : execWith c i s = .refused .illFormedRecord :=
    (execWith_eq_runRecord c i s).trans (runRecord_rejected _ h)
  exact ⟨refused c, (execWith_standard i s).symm.trans (refused .standard)⟩

/-! ### Where a record leaves PC -/

/-- A JMP, or a branch whose condition holds (R200 to R203). -/
def Transfers (i : Instr) (s : State) : Prop :=
  i.opcode = .jmp ∨ (i.opcode = .be ∧ s.zf = true) ∨ (i.opcode = .bne ∧ s.zf = false)

theorem not_transfers_of_opcode {i : Instr} {s : State} (h : i.opcode ∉ [Opcode.jmp, .be, .bne]) :
    ¬ Transfers i s := by
  rintro (e | ⟨e, -⟩ | ⟨e, -⟩) <;> exact h (by rw [e]; decide)

theorem afterWrite_pc {d : Slot} (hd : d ≠ .named .pc) (v : Byte) {f : State → State} (hf : ∀ u, (f u).pc = u.pc)
    (s : State) : (afterWrite d v f s).pc = s.pc + 1 := by
  rw [afterWrite, incrementPC_pc, hf, write_pc_of_ne s d v hd]

/-- R124, R203: a record that does not fault lands on its operand when it transfers, and otherwise, unless it writes PC
through its destination, goes one further. -/
theorem Effect.pc_cases {c : Config} {i : Instr} {s t : State} (h : Effect c i s t) (hr : t.run = .running) :
    (Transfers i s ∧ ReadsWith c i.mode i.dest s t.pc ∧ t.pc.toNat < s.len) ∨
    (¬ Transfers i s ∧ ((i.opcode ∈ writers → slotOf c i.dest ≠ some (.named .pc)) → t.pc = s.pc + 1)) := by
  have named {d : Slot} (hi : i.opcode ∈ writers) (hd : slotOf c i.dest = some d)
      (hn : i.opcode ∈ writers → slotOf c i.dest ≠ some (.named .pc)) : d ≠ .named .pc :=
    fun e => hn hi (hd.trans (congrArg some e))
  cases h with
  | fault | popFault => cases hr
  | jump _ v _ hi hv ht => exact .inl ⟨hi, hv, ht⟩
  | mov m src dest d v _ hd =>
    exact .inr ⟨not_transfers_of_opcode (by simp [Instr.opcode]), fun hn =>
      afterWrite_pc (named (by decide : Opcode.mov ∈ writers) hd hn) v (fun _ => rfl) s⟩
  | alu _ f d v _ hd hp hi =>
    have hop : i.opcode ∈ writers ∧ i.opcode ∉ [Opcode.jmp, .be, .bne] := by
      rcases hi with ⟨e, -⟩ | ⟨e, -⟩ | ⟨e, -⟩ <;> rw [e] <;> decide
    obtain ⟨hw, hj⟩ := hop
    exact .inr ⟨not_transfers_of_opcode hj, fun hn => afterWrite_pc (named hw hd hn) _ (fun _ => rfl) s⟩
  | pop m src dest d _ hd =>
    exact .inr ⟨not_transfers_of_opcode (by simp [Instr.opcode]), fun hn =>
      afterWrite_pc (named (by decide : Opcode.pop ∈ writers) hd hn) _ (fun _ => rfl) _⟩
  | notTaken _ _ hi =>
    refine .inr ⟨?_, fun _ => rfl⟩
    rcases hi with ⟨e, hz⟩ | ⟨e, hz⟩ <;> simp [Transfers, e, hz]
  | cmp | push | print => exact .inr ⟨not_transfers_of_opcode (by simp [Instr.opcode]), fun _ => rfl⟩

/-- Settles O50: `Effect.pc_cases` under the default parameters, where PC's identifier alone names PC. -/
theorem onlyTransfersLandWithoutIncrement : Obligations.OnlyTransfersLandWithoutIncrement := by
  unfold Obligations.OnlyTransfersLandWithoutIncrement
  intro s t i hr hi h htr
  rw [step_of_fetch hr hi, ← execWith_standard] at h
  obtain ⟨-, he⟩ := execWith_effect h
  rcases he.pc_cases htr with ⟨hj, hv, hlt⟩ | ⟨hj, hpc⟩
  · exact ⟨fun _ => ⟨readsWith_standard.1 hv, hlt⟩, fun hn => absurd hj hn⟩
  · refine ⟨fun hn => absurd hn hj, fun _ hdest => hpc fun hw hslot => hdest hw ?_⟩
    obtain ⟨r, hid, e⟩ := slotOf_standard_some hslot
    cases e
    exact hid

/-! ### The shared operations -/

/-- Settles O20: the resolver reads a register in RR and SR and answers the byte in RI and SI. -/
theorem resolverTellsRegisterFromLiteral : Obligations.ResolverTellsRegisterFromLiteral := by
  unfold Obligations.ResolverTellsRegisterFromLiteral
  intro b s
  refine ⟨fun m hm => ⟨resolve_of_ge s hm, fun r hb => ?_, eq_regValue_of_lt b⟩, ?_, ?_⟩
  · exact resolve_of_reads (.inl ⟨hm, r, hb, rfl⟩)
  · rintro c m (rfl | rfl) <;> rfl
  · rintro c m (rfl | rfl) <;> rfl

theorem setPC_of_ge {t : Byte} {s : State} (h : s.len ≤ t.toNat) : setPC t s = .error .invalidJumpTarget := if_pos h

theorem setPC_of_lt {t : Byte} {s : State} (h : t.toNat < s.len) : setPC t s = .ok { s with pc := t } :=
  if_neg (Nat.not_le_of_lt h)

/-- R125, D7: the cautious variant of the increment refuses at 255. -/
theorem advance_of_refuse {c : Config} {s : State} (hp : s.pc = 255) (h : c.pcWrap = .refuse) :
    advance c s = .refused .pcWouldWrap := by simp only [advance, h, hp, if_true]

/-- Settles O23: each writer of PC by the outcome of its check. -/
theorem pcWritersCheckAndWrap : Obligations.PcWritersCheckAndWrap := by
  unfold Obligations.PcWritersCheckAndWrap
  intro t s c
  refine ⟨setPC_of_ge, setPC_of_lt, BitVec.toNat_add s.pc 1, rfl, ?_, advance_of_refuse, rfl⟩
  rintro (hp | hw)
  · exact advance_of_ne c s hp
  · exact advance_of_wrap s hw

/-- Settles O24: the flag write, with the zero test read on the byte's value. -/
theorem updateFlagsSetsZeroFromTheResult : Obligations.UpdateFlagsSetsZeroFromTheResult := by
  unfold Obligations.UpdateFlagsSetsZeroFromTheResult
  intro r c o s
  have hzero : decide (r = 0) = decide (r.toNat = 0) := decide_eq_decide.2 BitVec.toNat_inj.symm
  rw [updateFlags, hzero, flagWrite]

/-- The three conditions of the compare convention are the three signs: exactly one holds (R128). -/
theorem sign_flags_sum (d : Int) : (decide (d = 0)).toNat + (decide (0 < d)).toNat + (decide (d < 0)).toNat = 1 := by
  rcases lt_trichotomy d 0 with h | rfl | h
  · simp [h, h.ne, h.le]
  · rfl
  · simp [h, h.ne', h.le]

/-- Settles O25: the compare convention is one flag write, of the three signs of the difference. -/
theorem updateCmpFlagsSetsTheSign : Obligations.UpdateCmpFlagsSetsTheSign := by
  unfold Obligations.UpdateCmpFlagsSetsTheSign
  intro d s
  exact ⟨decide_eq_true_iff, decide_eq_true_iff, decide_eq_true_iff, sign_flags_sum d,
    sameSlotsExcept_flagWrite _ _ _ s, rfl, ⟨rfl, rfl, rfl⟩, rfl⟩

end Sys2Proof.Machine
end

section
/-! MOV (`41_mov.md` R160) and the example words of the instruction rules: settles O29, O40 and O58. -/

namespace Sys2Proof.Machine

/-! ### The meaning of a well-formed record -/

/-- R123: a well-formed record always has a next state, the one the loop settles its execution to. -/
theorem exec_of_wf {i : Instr} (h : i.wf = true) (s : State) : exec i s = .next (settle (execution .standard i s)) :=
  (execWith_standard i s).symm.trans ((execWith_eq_runRecord .standard i s).trans (runRecord_accepted _ h))

/-! ### A register written, then the increment -/

theorem SameSlotsExcept.trans {rs rs' : List Reg} {s t u : State} (h : SameSlotsExcept rs s t)
    (h' : SameSlotsExcept rs' t u) : SameSlotsExcept (rs ++ rs') s u := by
  obtain ⟨hget, hspare⟩ := h
  obtain ⟨hget', hspare'⟩ := h'
  refine ⟨fun r hr => ?_, hspare'.trans hspare⟩
  obtain ⟨hr, hr'⟩ := not_or.1 (mt List.mem_append.2 hr)
  exact (hget' r hr').trans (hget r hr)

theorem sameSlotsExcept_incrementPC (s : State) : SameSlotsExcept [.pc] s (incrementPC s) :=
  sameSlotsExcept_set s .pc (s.pc + 1)

/-- R38: the loop's increment reads PC after the write, whatever `f` does to the flags in between. -/
theorem wroteThenNext_afterWrite {d : Reg} (hd : d.isFlag = false) (v : Byte) {f : State → State}
    (hf : ∀ u r, r.isFlag = false → (f u).get r = u.get r) (s : State) :
    WroteThenNext d v s (afterWrite (.named d) v f s) := by
  have hpc : (afterWrite (.named d) v f s).pc = (s.set d v).pc + 1 := congrArg (· + 1) (hf (s.set d v) .pc rfl)
  constructor
  · rintro rfl
    exact hpc
  · intro hne
    constructor
    · rw [afterWrite, get_incrementPC _ d hne, hf _ d hd, write_named, get_set_self s d v hd]
    · rw [hpc, set_pc_of_ne s d v hne]

/-! ### MOV -/

section
variable {m : Mode} (hm : m = .rr ∨ m = .ri)
include hm

theorem exec_mov (src dest : Byte) (s : State) :
    exec (.mov m src dest) s = .next (settle (execution .standard (.mov m src dest) s)) :=
  exec_of_wf (by rcases hm with rfl | rfl <;> rfl) s

/-- R160: once its source has a value, MOV is the register write of that value. -/
theorem exec_mov_of_resolve {src v : Byte} {s : State} (h : resolve .standard m src s = .ok v) (dest : Byte) :
    exec (.mov m src dest) s = .next (settle (orRaise s (regWrite .standard dest v s) (.done .next))) := by
  rw [exec_mov hm, execution, h, orRaise_ok]

/-- R160, R226: a register write that raises is MOV's fault, with nothing changed before it. -/
theorem exec_mov_of_write_error {src dest : Byte} {s : State} {k : Cause} (hsrc : OperandOk m src)
    (h : ∀ v, regWrite .standard dest v s = .error k) : exec (.mov m src dest) s = .next (s.atFault k) := by
  obtain ⟨v, hv⟩ := resolve_of_ok s hsrc
  rw [exec_mov_of_resolve hm hv, h v, orRaise_error, settle_raise]

end

/-- Settles O29: the source resolves to its value, the write to a slot that is no flag succeeds, and the next state is
that write and the increment. -/
theorem movCopiesItsSource : Obligations.MovCopiesItsSource := by
  unfold Obligations.MovCopiesItsSource
  intro m src v d s hm hv hd
  have hexec : exec (.mov m src (regValue d)) s = .next (incrementPC (s.set d v)) := by
    rw [exec_mov_of_resolve hm (resolve_of_reads hv), regWrite_plain d v s hd, orRaise_ok, settle_next]
  exact ⟨_, hexec, wroteThenNext_afterWrite hd v (f := id) (fun _ _ _ => rfl) s,
    (sameSlotsExcept_set s d v).trans (sameSlotsExcept_incrementPC _), ⟨set_zf s d v, set_cf s d v, set_of s d v⟩,
    fun a => memRead_of_stack a (set_stack s d v), sameRun_set s d v, set_out s d v⟩

/-- Settles O40: the resolver raises first; past it the register write raises, on the range or on the protection. -/
theorem movFaultsInOrder : Obligations.MovFaultsInOrder := by
  unfold Obligations.MovFaultsInOrder
  intro m src dest s hm
  refine ⟨fun hrr hsrc => ?_, fun hsrc hdest => ?_, fun hsrc hlo hhi => ?_⟩
  · rw [exec_mov hm, execution, resolve_of_ge s (.inl hrr) hsrc, orRaise_error, settle_raise]
  · exact exec_mov_of_write_error hm hsrc fun v => regWrite_of_ge dest v s hdest
  · obtain ⟨r, rfl⟩ := eq_regValue_of_lt dest (Nat.lt_succ_of_le hhi)
    exact exec_mov_of_write_error hm hsrc fun v => regWrite_flag r v s ((isFlag_iff r).2 hlo)

/-! ### The example words -/

/-- R90, R102: the word the assembler makes of a well-formed record decodes to it. -/
theorem decode_of_encode_eq {i : Instr} {w : Word} (hi : i.wf = true) (hw : encode i = w) : decode w = .ok i := by
  rw [← hw]
  exact decodeWith_encodeWith standard_injective 0 hi

/-- Settles O58: each word is the assembler's word of its record. -/
theorem exampleWordsDecode : Obligations.ExampleWordsDecode := by
  unfold Obligations.ExampleWordsDecode
  and_intros <;> exact decode_of_encode_eq rfl rfl

end Sys2Proof.Machine
end

section
/-! ADD, SUB and MUL (`42_arithmetic.md` R170 to R174): settles O26, O27, O28, O30, O31, O32 and O41. -/

namespace Sys2Proof.Machine

/-! ### Operands widened to 16 bits -/

theorem toNat_widened_add (a b : Byte) : (a.setWidth 16 + b.setWidth 16).toNat = a.toNat + b.toNat := by
  simp only [BitVec.toNat_add, BitVec.toNat_setWidth]
  omega

/-- R173: the 16-bit product of two bytes does not wrap. -/
theorem toNat_widened_mul (a b : Byte) : (a.setWidth 16 * b.setWidth 16).toNat = a.toNat * b.toNat := by
  have hlt : a.toNat * b.toNat < 2 ^ 8 * 2 ^ 8 := Nat.mul_lt_mul'' a.isLt b.isLt
  rw [BitVec.toNat_mul, BitVec.toNat_setWidth_of_le (by decide), BitVec.toNat_setWidth_of_le (by decide)]
  exact Nat.mod_eq_of_lt hlt

theorem toInt_widened_add (a b : Byte) : (a.signExtend 16 + b.signExtend 16).toInt = a.toInt + b.toInt := by
  obtain ⟨ha, ha'⟩ := toInt_byte_range a
  obtain ⟨hb, hb'⟩ := toInt_byte_range b
  rw [BitVec.toInt_add, BitVec.toInt_signExtend_of_le (by decide), BitVec.toInt_signExtend_of_le (by decide)]
  exact Int.bmod_eq_of_le (by omega) (by omega)

theorem toInt_widened_sub (a b : Byte) : (a.signExtend 16 - b.signExtend 16).toInt = a.toInt - b.toInt := by
  obtain ⟨ha, ha'⟩ := toInt_byte_range a
  obtain ⟨hb, hb'⟩ := toInt_byte_range b
  rw [BitVec.toInt_sub, BitVec.toInt_signExtend_of_le (by decide), BitVec.toInt_signExtend_of_le (by decide)]
  exact Int.bmod_eq_of_le (by omega) (by omega)

/-! ### The low byte of a 16-bit word -/

theorem lowByte_setWidth (a : Byte) : (a.setWidth 16).setWidth 8 = a := by
  apply BitVec.eq_of_toNat_eq
  rw [BitVec.toNat_setWidth, BitVec.toNat_setWidth_of_le (by decide)]
  exact Nat.mod_eq_of_lt a.isLt

theorem lowByte_signExtend (a : Byte) : (a.signExtend 16).setWidth 8 = a := by
  apply BitVec.eq_of_toInt_eq
  obtain ⟨hlo, hhi⟩ := toInt_byte_range a
  rw [← BitVec.signExtend_eq_setWidth_of_le _ (by decide),
    BitVec.toInt_signExtend_eq_toInt_bmod_of_le _ (by decide), BitVec.toInt_signExtend_of_le (by decide)]
  exact Int.bmod_eq_of_le (by omega) (by omega)

/-- Taking the low byte passes through a subtraction, as the library's `setWidth_add` says of a sum. -/
theorem lowByte_sub (x y : BitVec 16) : (x - y).setWidth 8 = x.setWidth 8 - y.setWidth 8 := by
  rw [BitVec.sub_eq_add_neg, BitVec.setWidth_add _ _ (by decide), BitVec.setWidth_neg_of_le (by decide),
    ← BitVec.sub_eq_add_neg]

/-! ### The ALU

Each result is the byte operation modulo 256, and each condition of ADD and SUB is the library's overflow test, which
has a bit-level form. -/

theorem outsideSigned_iff {d : Int} : outsideSigned d = true ↔ d < -128 ∨ 127 < d := by
  simp only [outsideSigned, Bool.or_eq_true, decide_eq_true_eq]

theorem aluAdd_result (a b : Byte) : (aluAdd a b).result = a + b := (BitVec.add_def a b).symm

theorem aluAdd_carry (a b : Byte) : (aluAdd a b).carry = a.uaddOverflow b := rfl

theorem aluAdd_overflow (a b : Byte) : (aluAdd a b).overflow = a.saddOverflow b := Bool.or_comm _ _

theorem aluSub_result (a b : Byte) : (aluSub a b).result = a - b := by
  rw [aluSub, Int.sub_eq_add_neg, BitVec.ofInt_add, BitVec.ofInt_neg, BitVec.ofInt_natCast, BitVec.ofInt_natCast,
    BitVec.ofNat_toNat, BitVec.ofNat_toNat, BitVec.setWidth_eq, BitVec.setWidth_eq, ← BitVec.sub_eq_add_neg]

theorem aluSub_overflow (a b : Byte) : (aluSub a b).overflow = a.ssubOverflow b := Bool.or_comm _ _

theorem aluMul_result (a b : Byte) : (aluMul a b).result = a * b := by
  rw [aluMul, BitVec.ofNat_mul, BitVec.ofNat_toNat, BitVec.ofNat_toNat, BitVec.setWidth_eq, BitVec.setWidth_eq]

/-- Settles O26: the widened sums are exact; carry is bit 8 of the 9-bit sum, and overflow means that operands of one
sign give a result of the other. -/
theorem addAgreesWithTheWidenedReference : Obligations.AddAgreesWithTheWidenedReference := by
  unfold Obligations.AddAgreesWithTheWidenedReference
  intro a b
  refine ⟨?_, ?_, ?_, ?_, ?_⟩
  · rw [aluAdd_result, BitVec.setWidth_add _ _ (by decide), lowByte_setWidth, lowByte_setWidth]
  · rw [toNat_widened_add]
    rfl
  · rw [toInt_widened_add]
    rfl
  · rw [aluAdd_carry, BitVec.uaddOverflow_eq]
  · have signs : ∀ x y r : Bool, (x == y && !(r == x)) = ((x ^^ r) && (y ^^ r)) := by decide
    rw [aluAdd_overflow, aluAdd_result, BitVec.saddOverflow_eq, BitVec.msb_and, BitVec.msb_xor, BitVec.msb_xor]
    exact signs a.msb b.msb (a + b).msb

/-- Settles O27: the widened difference is exact, and overflow means that operands of different signs give a result
whose sign is not the destination's. -/
theorem subAgreesWithTheWidenedReference : Obligations.SubAgreesWithTheWidenedReference := by
  unfold Obligations.SubAgreesWithTheWidenedReference
  intro a b
  refine ⟨?_, ?_, rfl, ?_, ?_⟩
  · rw [aluSub_result, lowByte_sub, lowByte_setWidth, lowByte_setWidth]
  · rw [aluSub_result, lowByte_sub, lowByte_signExtend, lowByte_signExtend]
  · rw [toInt_widened_sub]
    rfl
  · have signs : ∀ x y r : Bool, (!x && y && r || x && !y && !r) = ((x ^^ y) && (x ^^ r)) := by decide
    rw [aluSub_overflow, aluSub_result, BitVec.ssubOverflow_eq, BitVec.msb_and, BitVec.msb_xor, BitVec.msb_xor]
    exact signs a.msb b.msb (a - b).msb

/-- Settles O28: the widened product is exact. -/
theorem mulAgreesWithTheWidenedReference : Obligations.MulAgreesWithTheWidenedReference := by
  unfold Obligations.MulAgreesWithTheWidenedReference
  intro a b
  refine ⟨?_, ?_, rfl⟩
  · rw [aluMul_result, BitVec.setWidth_mul _ _ (by decide), lowByte_setWidth, lowByte_setWidth]
  · rw [toNat_widened_mul]
    rfl

/-! ### One meaning for the three instructions -/

/-- What an arithmetic opcode computes; `exec_of_aluOf` ties it to the model. -/
def aluOf : Opcode → Option (Byte → Byte → AluResult)
  | .add => some aluAdd
  | .sub => some aluSub
  | .mul => some aluMul
  | .mov | .cmp | .push | .pop | .jmp | .be | .bne | .print => none

theorem exists_aluOf {o : Opcode} (h : o = .add ∨ o = .sub ∨ o = .mul) : ∃ alu, aluOf o = some alu := by
  rcases h with rfl | rfl | rfl <;> exact ⟨_, rfl⟩

/-- R95: an arithmetic opcode accepts both two-operand modes. -/
theorem accepts_of_aluOf {o : Opcode} {alu : Byte → Byte → AluResult} (h : aluOf o = some alu) {m : Mode}
    (hm : m = .rr ∨ m = .ri) : o.accepts m = true := by
  cases o with
  | add | sub | mul => rcases hm with rfl | rfl <;> rfl
  | mov | cmp | push | pop | jmp | be | bne | print => cases h

section
variable {i : Instr} {alu : Byte → Byte → AluResult} (halu : aluOf i.opcode = some alu)
  (hm : i.mode = .rr ∨ i.mode = .ri) (s : State)
include halu

theorem execution_of_aluOf : execution .standard i s = arithmetic .standard alu i.mode i.src i.dest s := by
  cases i with
  | add m src dest | sub m src dest | mul m src dest =>
    cases halu
    rfl
  | mov | cmp | push | pop | jmp | be | bne | print => cases halu

include hm

theorem exec_of_aluOf : exec i s = .next (settle (arithmetic .standard alu i.mode i.src i.dest s)) := by
  rw [exec_of_wf (accepts_of_aluOf halu hm), execution_of_aluOf halu]

section
variable {d : Reg} {v : Byte} (hdest : i.dest = regValue d) (hd : d.isFlag = false) (hv : Reads i.mode i.src s v)
include hdest hd hv

/-- R170: past its checks, an arithmetic instruction is the register write, the flag update and the increment. -/
theorem exec_of_reads :
    exec i s = .next (afterWrite (.named d) (alu (s.get d) v).result
      (updateFlags (alu (s.get d) v).result (alu (s.get d) v).carry (alu (s.get d) v).overflow) s) := by
  rw [exec_of_aluOf halu hm, arithmetic, hdest, regRead_regValue, orRaise_ok, resolve_of_reads hv, orRaise_ok,
    regWrite_plain d _ s hd, orRaise_ok, settle_next]
  rfl

/-- R170 to R173, R37, R38: what the write, the flag update and the increment change, and what they leave unchanged. -/
theorem exec_writes_alu :
    ∃ t, exec i s = .next t ∧ WroteThenNext d (alu (s.get d) v).result s t ∧
      SameSlotsExcept [d, .pc, .zf, .cf, .of] s t ∧
      t.zf = decide ((alu (s.get d) v).result = 0) ∧ t.cf = (alu (s.get d) v).carry ∧
      t.of = (alu (s.get d) v).overflow ∧ SameStack s t ∧ SameRun s t ∧ t.out = s.out :=
  ⟨_, exec_of_reads halu hm s hdest hd hv,
    wroteThenNext_afterWrite hd _ (fun u r hr => get_flagWrite u _ _ _ r hr) s,
    ((sameSlotsExcept_set s d _).trans (sameSlotsExcept_incrementPC _)).trans (sameSlotsExcept_flagWrite _ _ _ _),
    rfl, rfl, rfl, fun a => memRead_of_stack a (set_stack s d _), sameRun_set s d _, set_out s d _⟩

end

end

/-! ### The three instructions complete -/

/-- Settles O30: the sum is 0 modulo 256 exactly when the truncated result is. -/
theorem addWritesTheSum : Obligations.AddWritesTheSum := by
  unfold Obligations.AddWritesTheSum
  intro m src v d s hm hv hd
  obtain ⟨t, hexec, hwrote, hslots, hz, hc, ho, hrest⟩ :=
    exec_writes_alu (i := .add m src (regValue d)) rfl hm s rfl hd hv
  rw [aluAdd_result] at hwrote hz
  refine ⟨t, hexec, hwrote, hslots, ?_, ?_, ?_, hrest⟩
  · rw [hz, decide_eq_true_eq, ← BitVec.toNat_inj, BitVec.toNat_add]
    rfl
  · rw [hc]
    exact decide_eq_true_iff
  · rw [ho]
    exact outsideSigned_iff

/-- Settles O31: the difference of two bytes is 0 exactly when they are equal. -/
theorem subWritesTheDifference : Obligations.SubWritesTheDifference := by
  unfold Obligations.SubWritesTheDifference
  intro m src v d s hm hv hd
  obtain ⟨t, hexec, hwrote, hslots, hz, hc, ho, hrest⟩ :=
    exec_writes_alu (i := .sub m src (regValue d)) rfl hm s rfl hd hv
  rw [aluSub_result] at hwrote hz
  refine ⟨t, hexec, hwrote, hslots, ?_, ?_, ?_, hrest⟩
  · rw [hz, decide_eq_true_eq]
    exact sub_eq_zero
  · rw [hc]
    exact decide_eq_true_iff
  · rw [ho]
    exact outsideSigned_iff

/-- Settles O32: one condition goes to both CF and OF. -/
theorem mulWritesTheLowProduct : Obligations.MulWritesTheLowProduct := by
  unfold Obligations.MulWritesTheLowProduct
  intro m src v d s hm hv hd
  obtain ⟨t, hexec, hwrote, hslots, hz, hc, ho, hrest⟩ :=
    exec_writes_alu (i := .mul m src (regValue d)) rfl hm s rfl hd hv
  rw [aluMul_result] at hwrote hz
  refine ⟨t, hexec, hwrote, hslots, ?_, ?_, ho.trans hc.symm, hrest⟩
  · rw [hz, decide_eq_true_eq, ← BitVec.toNat_inj, BitVec.toNat_mul]
    rfl
  · rw [hc]
    exact decide_eq_true_iff

/-! ### Where they fault -/

/-- Settles O41: the read of the destination raises first, then the resolver; past both the register write raises on a
flag. -/
theorem arithmeticFaultsInOrder : Obligations.ArithmeticFaultsInOrder := by
  unfold Obligations.ArithmeticFaultsInOrder
  intro i s hi hm
  obtain ⟨alu, halu⟩ := exists_aluOf hi
  rw [exec_of_aluOf halu hm, arithmetic]
  refine ⟨fun hdest => ?_, fun hrr hsrc => ?_, fun hsrc hlo hhi => ?_⟩
  · rw [regRead_of_ge _ s hdest, orRaise_error, settle_raise]
  · rcases regRead_cases .standard i.dest s with ⟨-, hdest⟩ | ⟨d, -, hdest⟩
    · rw [hdest, orRaise_error, settle_raise]
    · rw [hdest, orRaise_ok, resolve_of_ge s (.inl hrr) hsrc, orRaise_error, settle_raise]
  · obtain ⟨r, hr⟩ := eq_regValue_of_lt i.dest (Nat.lt_succ_of_le hhi)
    obtain ⟨b, hb⟩ := resolve_of_ok s hsrc
    have hflag : r.isFlag = true := (isFlag_iff r).2 (hr ▸ hlo)
    rw [hr, regRead_regValue, orRaise_ok, hb, orRaise_ok, regWrite_flag r _ s hflag, orRaise_error, settle_raise]

end Sys2Proof.Machine
end

section
/-! CMP and PRINT's faults (`43_cmp.md` R180, `46_print.md` R210): settles O33 and O42. -/

namespace Sys2Proof.Machine

/-! ### CMP -/

/-- R128: the signs of a difference are the order of its two terms. -/
theorem updateCmpFlags_sub (a b : Int) (s : State) :
    updateCmpFlags (a - b) s = flagWrite (decide (a = b)) (decide (b < a)) (decide (a < b)) s := by
  simp only [updateCmpFlags, sub_eq_zero, sub_pos, sub_neg]

section
variable {m : Mode} (hm : m = .rr ∨ m = .ri)
include hm

theorem exec_cmp (src dest : Byte) (s : State) :
    exec (.cmp m src dest) s = .next (settle (execution .standard (.cmp m src dest) s)) :=
  exec_of_wf (by rcases hm with rfl | rfl <;> rfl) s

/-- R180: with both operands read, CMP is the flag write and the increment; the destination may be a flag. -/
theorem exec_cmp_of_reads {src v : Byte} {s : State} (hv : Reads m src s v) (d : Reg) :
    exec (.cmp m src (regValue d)) s = .next (incrementPC (updateCmpFlags ((s.get d).toInt - v.toInt) s)) := by
  rw [exec_cmp hm, execution, regRead_regValue, orRaise_ok, resolve_of_reads hv, orRaise_ok, settle_next]

/-- R180, R225: a destination out of range raises, whatever the source. -/
theorem exec_cmp_of_dest_ge {dest : Byte} (hdest : 9 ≤ dest.toNat) (src : Byte) (s : State) :
    exec (.cmp m src dest) s = .next (s.atFault .invalidRegister) := by
  rw [exec_cmp hm, execution, regRead_of_ge dest s hdest, orRaise_error, settle_raise]

end

/-- R180, R225: a source register out of range raises, for a destination in or out of range. -/
theorem exec_cmp_of_src_ge {src : Byte} (hsrc : 9 ≤ src.toNat) (dest : Byte) (s : State) :
    exec (.cmp .rr src dest) s = .next (s.atFault .invalidRegister) := by
  by_cases hdest : 9 ≤ dest.toNat
  · exact exec_cmp_of_dest_ge (.inl rfl) hdest src s
  · obtain ⟨d, rfl⟩ := eq_regValue_of_lt dest (Nat.lt_of_not_le hdest)
    rw [exec_cmp (.inl rfl), execution, regRead_regValue, orRaise_ok, resolve_of_ge s (.inl rfl) hsrc, orRaise_error,
      settle_raise]

/-- Settles O33: the one flag write of the compare convention and the increment, read on the two bytes' values. -/
theorem cmpSetsTheFlagsOnly : Obligations.CmpSetsTheFlagsOnly := by
  unfold Obligations.CmpSetsTheFlagsOnly
  intro m src v d s hm hv
  rw [exec_cmp_of_reads hm hv d, updateCmpFlags_sub]
  rfl

/-! ### PRINT -/

theorem exec_print {m : Mode} (hm : m = .sr ∨ m = .si) (src b : Byte) (s : State) :
    exec (.print m src b) s = .next (settle (execution .standard (.print m src b) s)) :=
  exec_of_wf (by rcases hm with rfl | rfl <;> rfl) s

/-- R210, R225: an operand register out of range raises before anything is emitted. -/
theorem exec_print_of_ge {b : Byte} (hb : 9 ≤ b.toNat) (src : Byte) (s : State) :
    exec (.print .sr src b) s = .next (s.atFault .invalidRegister) := by
  rw [exec_print (.inl rfl), execution, resolve_of_ge s (.inr rfl) hb, orRaise_error, settle_raise]

/-- Settles O42: CMP raises at its first bad identifier, PRINT at its only one. -/
theorem cmpAndPrintFaultOnABadRegister : Obligations.CmpAndPrintFaultOnABadRegister := by
  unfold Obligations.CmpAndPrintFaultOnABadRegister
  intro m src dest s
  refine ⟨fun hm hdest => exec_cmp_of_dest_ge hm hdest src s, ?_, ?_⟩
  · rintro rfl hsrc
    exact exec_cmp_of_src_ge hsrc dest s
  · rintro rfl hdest
    exact exec_print_of_ge hdest src s

end Sys2Proof.Machine
end

section
/-! PUSH and POP (`44_stack.md` R190 to R192): settles O34, O35, O43, O44 and O52. -/

namespace Sys2Proof.Machine

/-! ### The state a successful push leaves -/

/-- R61: SP one less, and the value in the new top cell; `stackPush_eq_pushed` ties it to the model. -/
def pushed (v : Byte) (s : State) : State := memWrite (s.sp - 1) v (s.set .sp (s.sp - 1))

theorem stackPush_eq_pushed (v : Byte) {s : State} (h : s.sp ≠ 0) : stackPush v s = .ok (pushed v s) :=
  stackPush_of_ne v h

@[simp] theorem pushed_sp (v : Byte) (s : State) : (pushed v s).sp = s.sp - 1 := rfl

section
variable {s : State} (hw : Memory.wf s.stack = true)
include hw

theorem memRead_pushed_self (v : Byte) : memRead (s.sp - 1) (pushed v s) = v :=
  memRead_memWrite_self (s.set .sp (s.sp - 1)) (s.sp - 1) v hw

theorem memRead_pushed_other (v : Byte) {a : Byte} (ha : a ≠ s.sp - 1) : memRead a (pushed v s) = memRead a s :=
  memRead_memWrite_other (s.set .sp (s.sp - 1)) (s.sp - 1) a v hw ha

theorem pushed_stack_wf (v : Byte) : Memory.wf (pushed v s).stack = true :=
  memWrite_wf (s.set .sp (s.sp - 1)) (s.sp - 1) v hw

end

/-! ### PUSH -/

section
variable {m : Mode} (hm : m = .sr ∨ m = .si)
include hm

theorem exec_push (src b : Byte) (s : State) :
    exec (.push m src b) s = .next (settle (execution .standard (.push m src b) s)) :=
  exec_of_wf (by rcases hm with rfl | rfl <;> rfl) s

/-- R190: once its operand has a value, PUSH is the checked push of that value. -/
theorem exec_push_of_resolve {b v : Byte} {s : State} (h : resolve .standard m b s = .ok v) (src : Byte) :
    exec (.push m src b) s = .next (settle (orRaise s (stackPush v s) (.done .next))) := by
  rw [exec_push hm, execution, h, orRaise_ok]

end

/-- Settles O34: the operand resolves to its value in the state before, the push succeeds, and the next state is that
push and the increment. -/
theorem pushStoresBelowTheTop : Obligations.PushStoresBelowTheTop := by
  unfold Obligations.PushStoresBelowTheTop
  intro m src b v s hm hv hsp hw
  have hexec : exec (.push m src b) s = .next (incrementPC (pushed v s)) := by
    rw [exec_push_of_resolve hm (resolve_of_reads hv), stackPush_eq_pushed v hsp, orRaise_ok, settle_next]
  exact ⟨_, hexec, rfl, rfl, memRead_pushed_self hw v, fun a ha => memRead_pushed_other hw v ha,
    (sameSlotsExcept_memWrite_set s .sp _ v _).trans (sameSlotsExcept_incrementPC _), ⟨rfl, rfl, rfl⟩,
    ⟨rfl, rfl, rfl⟩, rfl⟩

/-- Settles O43: the resolver raises first, whatever SP is; past it the push raises at SP = 0. -/
theorem pushFaultsInOrder : Obligations.PushFaultsInOrder := by
  unfold Obligations.PushFaultsInOrder
  intro m src b s hm
  refine ⟨fun hsr hb => ?_, fun hb hsp => ?_⟩
  · rw [exec_push hm, execution, resolve_of_ge s (.inr hsr) hb, orRaise_error, settle_raise]
  · obtain ⟨v, hv⟩ := resolve_of_ok s hb
    rw [exec_push_of_resolve hm hv, stackPush_of_zero v hsp, orRaise_error, settle_raise]

/-! ### POP -/

theorem exec_pop (src dest : Byte) (s : State) :
    exec (.pop .sr src dest) s = .next (settle (execution .standard (.pop .sr src dest) s)) :=
  exec_of_wf rfl s

section
variable {s : State} (hs : s.sp ≠ 255)
include hs

/-- R191: past the underflow check, POP raises SP and then is the register write of the top. -/
theorem exec_pop_of_ne (src dest : Byte) :
    exec (.pop .sr src dest) s = .next (settle (orRaise (s.set .sp (s.sp + 1))
      (regWrite .standard dest (memRead s.sp s) (s.set .sp (s.sp + 1))) (.done .next))) := by
  rw [exec_pop, execution, stackPop_of_ne hs, orRaise_ok]

/-- R191, R227: a register write that raises is POP's fault, the increment of SP before it kept. -/
theorem exec_pop_of_write_error (src : Byte) {dest : Byte} {k : Cause}
    (h : ∀ v u, regWrite .standard dest v u = .error k) :
    exec (.pop .sr src dest) s = .next ((s.set .sp (s.sp + 1)).atFault k) := by
  rw [exec_pop_of_ne hs, h, orRaise_error, settle_raise]

end

theorem SameSlotsExcept.mono {rs rs' : List Reg} {s t : State} (h : SameSlotsExcept rs s t) (hsub : rs ⊆ rs') :
    SameSlotsExcept rs' s t := by
  obtain ⟨hget, hspare⟩ := h
  exact ⟨fun r hr => hget r fun hmem => hr (hsub hmem), hspare⟩

/-- Settles O35: the next state is the increment of SP, then the write of the top read before it, which wins where the
destination is SP, then the increment of PC. -/
theorem popLoadsTheTop : Obligations.PopLoadsTheTop := by
  unfold Obligations.PopLoadsTheTop
  intro src d s hd hs
  have hexec : exec (.pop .sr src (regValue d)) s =
      .next (incrementPC ((s.set .sp (s.sp + 1)).set d (memRead s.sp s))) := by
    rw [exec_pop_of_ne hs, regWrite_plain d _ _ hd, orRaise_ok, settle_next]
  have hslots : SameSlotsExcept [.sp, d, .pc] s (incrementPC ((s.set .sp (s.sp + 1)).set d (memRead s.sp s))) :=
    ((sameSlotsExcept_set s .sp _).trans (sameSlotsExcept_set _ d _)).trans (sameSlotsExcept_incrementPC _)
  exact ⟨_, hexec, wroteThenNext_afterWrite hd _ (f := id) (fun _ _ _ => rfl) (s.set .sp (s.sp + 1)),
    fun hne => set_sp_of_ne _ d _ hne, hslots.mono (List.Perm.swap d .sp [.pc]).subset,
    ⟨set_zf _ d _, set_cf _ d _, set_of _ d _⟩, fun a => memRead_of_stack a (set_stack _ d _), sameRun_set _ d _,
    set_out _ d _⟩

/-- Settles O44: the pop raises first; past it the register write raises, on the range or on the protection. -/
theorem popFaultsInOrderAndKeepsItsIncrement : Obligations.PopFaultsInOrderAndKeepsItsIncrement := by
  unfold Obligations.PopFaultsInOrderAndKeepsItsIncrement
  intro src dest s
  refine ⟨fun htop => ?_, fun hs hdest => ?_, fun hs hlo hhi => ?_⟩
  · rw [exec_pop, execution, stackPop_of_top htop, orRaise_error, settle_raise]
  · exact exec_pop_of_write_error hs src fun v u => regWrite_of_ge dest v u hdest
  · obtain ⟨r, rfl⟩ := eq_regValue_of_lt dest (Nat.lt_succ_of_le hhi)
    exact exec_pop_of_write_error hs src fun v u => regWrite_flag r v u ((isFlag_iff r).2 hlo)

/-! ### A run of pushes, then a run of pops -/

theorem toNat_sub_one {a : Byte} (h : a ≠ 0) : (a - 1).toNat + 1 = a.toNat := by bv_omega

theorem ne_zero_of_lt_toNat {a : Byte} {n : Nat} (h : n < a.toNat) : a ≠ 0 := by bv_omega

theorem set_sp_set_sp (s : State) (v w : Byte) : (s.set .sp v).set .sp w = s.set .sp w := rfl

theorem pushAll_cons (v : Byte) (vs : List Byte) {s : State} (h : s.sp ≠ 0) :
    pushAll (v :: vs) s = pushAll vs (pushed v s) := by
  rw [pushAll, stackPush_eq_pushed v h]

theorem popAll_succ {n : Nat} {s t u : State} {v : Byte} {vs : List Byte} (hpop : stackPop s = .ok (v, t))
    (h : popAll n t = .ok (vs, u)) : popAll (n + 1) s = .ok (v :: vs, u) := by
  simp only [popAll, hpop, h]

/-- R61, R62: with room for them all, the pushes succeed, lower SP by their number and leave every cell from the old SP
up as it was. -/
theorem pushAll_ok (vs : List Byte) {s : State} (hw : Memory.wf s.stack = true) (hlen : vs.length ≤ s.sp.toNat) :
    ∃ t, pushAll vs s = .ok t ∧ t.sp.toNat + vs.length = s.sp.toNat ∧
      ∀ a : Byte, s.sp.toNat ≤ a.toNat → memRead a t = memRead a s := by
  induction vs generalizing s with
  | nil => exact ⟨s, rfl, rfl, fun _ _ => rfl⟩
  | cons v vs ih =>
    rw [List.length_cons] at hlen
    have hsp : s.sp ≠ 0 := ne_zero_of_lt_toNat hlen
    have hdown : (pushed v s).sp.toNat + 1 = s.sp.toNat := toNat_sub_one hsp
    obtain ⟨t, hpush, hlow, hkept⟩ := ih (pushed_stack_wf hw v) (by omega)
    refine ⟨t, (pushAll_cons v vs hsp).trans hpush, by rw [List.length_cons]; omega, fun a ha => ?_⟩
    have hne : a ≠ s.sp - 1 := by
      rintro rfl
      rw [pushed_sp] at hdown
      omega
    exact (hkept a (by omega)).trans (memRead_pushed_other hw v hne)

/-- R192: after the pushes of `vs`, the pops answer `vs` backwards and then go on as from the state with the old SP: the
value pushed first is still in its cell when the pops come to it. -/
theorem popAll_of_pushAll (vs : List Byte) {s t : State} (hw : Memory.wf s.stack = true)
    (hlen : vs.length ≤ s.sp.toNat) (hpush : pushAll vs s = .ok t) {n : Nat} {ws : List Byte} {u : State}
    (h : popAll n (t.set .sp s.sp) = .ok (ws, u)) : popAll (vs.length + n) t = .ok (vs.reverse ++ ws, u) := by
  induction vs generalizing s n ws with
  | nil =>
    cases hpush
    rw [List.length_nil, Nat.zero_add]
    exact h
  | cons v vs ih =>
    rw [List.length_cons] at hlen
    have hsp : s.sp ≠ 0 := ne_zero_of_lt_toNat hlen
    have hdown : (pushed v s).sp.toNat + 1 = s.sp.toNat := toNat_sub_one hsp
    rw [pushAll_cons v vs hsp] at hpush
    obtain ⟨t', hpush', -, hkept⟩ := pushAll_ok vs (pushed_stack_wf hw v) (by omega)
    obtain rfl : t' = t := Except.ok.inj (hpush'.symm.trans hpush)
    have htop : memRead (s.sp - 1) t' = v := (hkept _ le_rfl).trans (memRead_pushed_self hw v)
    have hpop : stackPop (t'.set .sp (s.sp - 1)) = .ok (v, t'.set .sp s.sp) := by
      rw [stackPop_of_ne (by rw [set_sp_self]; bv_omega), set_sp_self, BitVec.sub_add_cancel,
        memRead_of_stack _ (set_stack t' .sp _), htop, set_sp_set_sp]
    have hnext := ih (pushed_stack_wf hw v) (by omega) hpush (popAll_succ hpop h)
    rw [List.length_cons, Nat.add_right_comm, List.reverse_cons, List.append_assoc]
    exact hnext

/-- Settles O52: the run of pops after the run of pushes, with no pop to follow. -/
theorem pushesThenPopsReverse : Obligations.PushesThenPopsReverse := by
  unfold Obligations.PushesThenPopsReverse
  intro vs s hw hlen
  obtain ⟨t, hpush, hsp, -⟩ := pushAll_ok vs hw hlen
  have hpop := popAll_of_pushAll vs hw hlen hpush (n := 0) rfl
  rw [List.append_nil] at hpop
  exact ⟨t, t.set .sp s.sp, hpush, Nat.eq_sub_of_add_eq hsp, hpop, rfl⟩

end Sys2Proof.Machine
end

section
/-! JMP, BE and BNE (`45_branch.md` R200 to R203): settles O36, O37, O38 and O45. -/

namespace Sys2Proof.Machine

/-- R95: a control transfer accepts both one-operand modes. -/
theorem accepts_of_transfer_opcode {o : Opcode} (ho : o = .jmp ∨ o = .be ∨ o = .bne) {m : Mode}
    (hm : m = .sr ∨ m = .si) : o.accepts m = true := by
  rcases ho with rfl | rfl | rfl <;> rcases hm with rfl | rfl <;> rfl

/-! ### A taken transfer -/

section
variable {i : Instr} {s : State}
  (hi : i.opcode = .jmp ∨ (i.opcode = .be ∧ s.zf = true) ∨ (i.opcode = .bne ∧ s.zf = false))
include hi

/-- R200 to R202: JMP, a BE with ZF set and a BNE with ZF clear do one and the same thing. -/
theorem execution_of_taken : execution .standard i s = transfer .standard i.mode i.dest s := by
  cases i with
  | jmp m src b => rfl
  | be m src b =>
    have hz : s.zf = true := by simpa [Instr.opcode] using hi
    exact if_pos hz
  | bne m src b =>
    have hz : s.zf = false := by simpa [Instr.opcode] using hi
    exact if_neg (ne_true_of_eq_false hz)
  | mov | add | sub | mul | cmp | push | pop | print => simp [Instr.opcode] at hi

variable (hm : i.mode = .sr ∨ i.mode = .si)
include hm

theorem exec_of_taken : exec i s = .next (settle (transfer .standard i.mode i.dest s)) := by
  rw [exec_of_wf (accepts_of_transfer_opcode (hi.imp_right (Or.imp And.left And.left)) hm), execution_of_taken hi]

omit hm in
/-- R200, R225: an operand register out of range raises before any target is looked at. -/
theorem exec_taken_of_operand_ge (hsr : i.mode = .sr) (hb : 9 ≤ i.dest.toNat) :
    exec i s = .next (s.atFault .invalidRegister) := by
  rw [exec_of_taken hi (.inl hsr), transfer, resolve_of_ge s (.inr hsr) hb, orRaise_error, settle_raise]

section
variable {v : Byte} (hv : Reads i.mode i.dest s v)
include hv

/-- R126, R200: once its operand has a value, a taken transfer is the checked jump to that value. -/
theorem exec_taken_of_reads : exec i s = .next (settle (orRaise s (setPC v s) (.done .jumped))) := by
  rw [exec_of_taken hi hm, transfer, resolve_of_reads hv, orRaise_ok]

/-- R203, R245: the jump is not followed by an increment. -/
theorem exec_taken_of_target_lt (hlt : v.toNat < s.prog.length) : exec i s = .next { s with pc := v } := by
  rw [exec_taken_of_reads hi hm hv, setPC_of_lt hlt, orRaise_ok, settle_jumped]

/-- R126, R226: a target at or past the program's end raises with PC as it was. -/
theorem exec_taken_of_target_ge (hge : s.prog.length ≤ v.toNat) : exec i s = .next (s.atFault .invalidJumpTarget) := by
  rw [exec_taken_of_reads hi hm hv, setPC_of_ge hge, orRaise_error, settle_raise]

end

end

/-! ### A branch not taken -/

section
variable {m : Mode} (hm : m = .sr ∨ m = .si) {s : State}
include hm

/-- R201: with ZF clear, BE does not look at its operand byte. -/
theorem exec_be_of_clear (hz : s.zf = false) (src b : Byte) : exec (.be m src b) s = .next (incrementPC s) := by
  have hexec : execution .standard (.be m src b) s = .done .next s := if_neg (ne_true_of_eq_false hz)
  rw [exec_of_wf (i := .be m src b) (accepts_of_transfer_opcode (.inr (.inl rfl)) hm), hexec, settle_next]

/-- R202: with ZF set, BNE does not look at its operand byte. -/
theorem exec_bne_of_set (hz : s.zf = true) (src b : Byte) : exec (.bne m src b) s = .next (incrementPC s) := by
  have hexec : execution .standard (.bne m src b) s = .done .next s := if_pos hz
  rw [exec_of_wf (i := .bne m src b) (accepts_of_transfer_opcode (.inr (.inr rfl)) hm), hexec, settle_next]

end

/-! ### The three instructions complete -/

/-- Settles O36: a JMP is always taken. -/
theorem jmpLandsOnItsTarget : Obligations.JmpLandsOnItsTarget := fun m src b _ _ hm hv hlt =>
  exec_taken_of_target_lt (i := .jmp m src b) (.inl rfl) hm hv hlt

/-- Settles O37: taken or not by ZF, and not taken the next state is the increment alone. -/
theorem beFollowsTheZeroFlag : Obligations.BeFollowsTheZeroFlag := by
  unfold Obligations.BeFollowsTheZeroFlag
  intro m src b v s hm
  constructor
  · intro hz hv hlt
    exact exec_taken_of_target_lt (i := .be m src b) (.inr (.inl ⟨rfl, hz⟩)) hm hv hlt
  · intro hz
    exact exec_be_of_clear hm hz src b

/-- Settles O38: the two cases of BE with ZF the other way. -/
theorem bneFollowsTheClearZeroFlag : Obligations.BneFollowsTheClearZeroFlag := by
  unfold Obligations.BneFollowsTheClearZeroFlag
  intro m src b v s hm
  constructor
  · intro hz hv hlt
    exact exec_taken_of_target_lt (i := .bne m src b) (.inr (.inr ⟨rfl, hz⟩)) hm hv hlt
  · intro hz
    exact exec_bne_of_set hm hz src b

/-! ### Where they fault -/

/-- Settles O45: the resolver raises first, then the checked jump. -/
theorem takenTransfersFaultInOrder : Obligations.TakenTransfersFaultInOrder := fun _ _ _ hi hm =>
  ⟨exec_taken_of_operand_ge hi, exec_taken_of_target_ge hi hm⟩

end Sys2Proof.Machine
end

section
/-! PRINT's result (`46_print.md` R210): settles O39. -/

namespace Sys2Proof.Machine

/-- R10: a byte's signed value is its unsigned value, less 256 from 128 up. -/
theorem toInt_byte_eq (v : Byte) : v.toInt = if v.toNat < 128 then (v.toNat : Int) else v.toNat - 256 := by
  have hsign : 2 * v.toNat < 2 ^ 8 ↔ v.toNat < 128 := by omega
  rw [BitVec.toInt_eq_toNat_cond]
  exact if_congr hsign rfl rfl

/-- R210: with its operand read, PRINT is the append to the channel and the increment. -/
theorem exec_print_of_reads {m : Mode} (hm : m = .sr ∨ m = .si) {b v : Byte} {s : State} (hv : Reads m b s v)
    (src : Byte) : exec (.print m src b) s = .next (incrementPC (emit v s)) := by
  rw [exec_print hm, execution, resolve_of_reads hv, orRaise_ok, settle_next]

/-- Settles O39: the operand resolves to its value, whose signed reading is the one entry appended. -/
theorem printAppendsTheSignedValue : Obligations.PrintAppendsTheSignedValue := by
  unfold Obligations.PrintAppendsTheSignedValue
  intro m src b v s hm hv
  exact ⟨exec_print_of_reads hm hv src, toInt_byte_eq v, toInt_byte_range v⟩

end Sys2Proof.Machine
end

section
/-! Faults (`60_exceptions.md` R220 to R229): settles O16 and O17. -/

namespace Sys2Proof.Machine

/-! ### The two ways a record faults -/

section
variable {c : Config} {i : Instr} {s t : State}

/-- R226, R227: a record that faults has changed nothing before its raise, or is a POP whose pop has moved SP. -/
theorem Effect.fault_cases (h : Effect c i s t) (hr : s.run = .running) (ht : t.run = .faulted) :
    (∃ k, CanRaise c i s k ∧ BranchTaken i s ∧ t = s.atFault k) ∨
    (∃ k, PopCause c i.dest k ∧ i.opcode = .pop ∧ s.sp ≠ Config.stackTop ∧ t = (s.set .sp (s.sp + 1)).atFault k) := by
  cases h with
  | fault _ _ k hk hb => exact .inl ⟨k, hk, hb, rfl⟩
  | popFault m src dest _ k hk hs => exact .inr ⟨k, hk, rfl, hs, rfl⟩
  | mov | alu | cmp | push | pop | jump | notTaken | print =>
    simp [afterWrite, updateFlags, updateCmpFlags, hr] at ht

/-- R191, R225: before its pop a POP raises StackUnderflow alone. -/
theorem CanRaise.stackUnderflow_of_pop {k : Cause} (h : CanRaise c i s k) (hop : i.opcode = .pop) :
    k = .stackUnderflow ∧ s.sp = Config.stackTop := by
  cases k with
  | stackUnderflow => exact ⟨rfl, h.2⟩
  | invalidRegister | protectedRegister => exact absurd hop h.1
  | stackOverflow | invalidJumpTarget => simp [CanRaise, hop] at h
  | unknownOpcode | illegalMode | programTooLarge | internalInvariant => exact h.elim

theorem sameSlotsExcept_atFault (s : State) (k : Cause) : SameSlotsExcept [] s (s.atFault k) :=
  ⟨fun r _ => get_enterFault s k r, rfl⟩

/-- R123, R226: a fault in the loop is the fault of the record at PC. -/
theorem effect_of_step_faulted (hr : s.run = .running) (h : step s = .next t) (ht : t.run = .faulted) :
    ∃ i, s.prog[s.pc.toNat]? = some i ∧ i.wf = true ∧ Effect .standard i s t := by
  obtain ⟨hover, -⟩ | ⟨-, -, rfl⟩ | ⟨-, -, i, -, hi, hwf, -, he⟩ := step_cases h
  · exact absurd hr hover
  · cases ht
  · exact ⟨i, hi, hwf, he⟩

/-! ### The cause table (R222) -/

/-- The row of R222's table for a cause, under the default parameters: the records that raise it, and when.
`CanRaise.tableRow` and `PopCause.tableRow` tie it to the model. -/
def TableRow (i : Instr) (s : State) : Cause → Prop
  | .invalidRegister => (i.mode ≠ .si ∧ 9 ≤ i.dest.toNat) ∨ (i.mode = .rr ∧ 9 ≤ i.src.toNat)
  | .protectedRegister => i.opcode ∈ writers ∧ 6 ≤ i.dest.toNat ∧ i.dest.toNat ≤ 8
  | .stackOverflow => i.opcode = .push ∧ s.sp = 0
  | .stackUnderflow => i.opcode = .pop ∧ s.sp = 255
  | .invalidJumpTarget => i.opcode ∈ [Opcode.jmp, .be, .bne] ∧ ∃ v, Reads i.mode i.dest s v ∧ s.prog.length ≤ v.toNat
  | .unknownOpcode | .illegalMode | .programTooLarge | .internalInvariant => False

theorem TableRow.mem_instruction_causes {k : Cause} (h : TableRow i s k) :
    k ∈ [Cause.invalidRegister, .protectedRegister, .stackOverflow, .stackUnderflow, .invalidJumpTarget] := by
  cases k with
  | invalidRegister | protectedRegister | stackOverflow | stackUnderflow | invalidJumpTarget => decide
  | unknownOpcode | illegalMode | programTooLarge | internalInvariant => exact h.elim

/-- R27: the protected identifiers are those of the three flags. -/
theorem flag_id_of_protects {id : Byte} {d : Slot} (hd : slotOf .standard id = some d)
    (hp : protects .standard d = true) : 6 ≤ id.toNat ∧ id.toNat ≤ 8 := by
  obtain ⟨r, rfl, rfl⟩ := slotOf_standard_some hd
  exact ⟨(isFlag_iff r).1 hp, Nat.le_of_lt_succ (regValue_toNat_lt r)⟩

theorem CanRaise.tableRow {k : Cause} (h : CanRaise .standard i s k) : TableRow i s k := by
  cases k with
  | invalidRegister =>
    obtain ⟨-, h⟩ := h
    exact h.imp (And.imp_right slotOf_standard_none) (And.imp_right slotOf_standard_none)
  | protectedRegister =>
    obtain ⟨-, hw, d, hd, hp⟩ := h
    exact ⟨hw, flag_id_of_protects hd hp⟩
  | invalidJumpTarget =>
    obtain ⟨hop, v, hv, hlen⟩ := h
    exact ⟨hop, v, readsWith_standard.1 hv, hlen⟩
  | stackOverflow | stackUnderflow | unknownOpcode | illegalMode | programTooLarge | internalInvariant => exact h

/-- R28, R27: the destination a POP faults on after its pop is no register, or a flag. -/
theorem PopCause.dest_not_writable {dest : Byte} {k : Cause} (h : PopCause .standard dest k) :
    9 ≤ dest.toNat ∨ 6 ≤ dest.toNat ∧ dest.toNat ≤ 8 := by
  obtain ⟨-, hd⟩ | ⟨-, d, hd, hp⟩ := h
  · exact .inl (slotOf_standard_none hd)
  · exact .inr (flag_id_of_protects hd hp)

theorem PopCause.tableRow {k : Cause} (h : PopCause .standard i.dest k) (hop : i.opcode = .pop) (hwf : i.wf = true) :
    TableRow i s k := by
  obtain ⟨rfl, hd⟩ | ⟨rfl, d, hd, hp⟩ := h
  · have hsi : i.mode ≠ .si := by
      intro hm
      rw [Instr.wf, hop, hm] at hwf
      cases hwf
    exact .inl ⟨hsi, slotOf_standard_none hd⟩
  · have hw : i.opcode ∈ writers := by rw [hop]; decide
    exact ⟨hw, flag_id_of_protects hd hp⟩

/-- R222 to R225: a fault's cause has its row of the table, and the branch or the pop got as far as the raise. -/
theorem Effect.tableRow_of_fault {k : Cause} {n : Nat} (h : Effect .standard i s t) (hwf : i.wf = true)
    (hr : s.run = .running) (ht : t.run = .faulted) (hf : t.fault = some { cause := k, index := n }) :
    TableRow i s k ∧ BranchTaken i s ∧ (i.opcode = .pop → k ≠ .stackUnderflow → s.sp ≠ 255) := by
  rcases h.fault_cases hr ht with ⟨k', hk, hb, rfl⟩ | ⟨k', hk, hop, hsp, rfl⟩ <;> cases hf
  · exact ⟨hk.tableRow, hb, fun hop hne => absurd (hk.stackUnderflow_of_pop hop).1 hne⟩
  · have hb : BranchTaken i s := by constructor <;> rw [hop] <;> nofun
    exact ⟨hk.tableRow hop hwf, hb, fun _ _ => hsp⟩

end

/-- Settles O16: fault entry changes no slot, and what came before it is nothing or a POP's increment of SP. -/
theorem faultsArePreciseAndKeepNothingButPop : Obligations.FaultsArePreciseAndKeepNothingButPop := by
  unfold Obligations.FaultsArePreciseAndKeepNothingButPop
  intro s t hr h ht
  obtain ⟨i, hi, hwf, he⟩ := effect_of_step_faulted hr h ht
  rcases he.fault_cases hr ht with ⟨k, hk, -, rfl⟩ | ⟨k, hk, hop, hsp, rfl⟩
  · exact ⟨i, hi, hwf, rfl, ⟨k, rfl, by simpa using hk.tableRow.mem_instruction_causes⟩,
      (sameSlotsExcept_atFault s k).mono (List.nil_subset _), rfl, rfl, rfl,
      fun hop hsp => absurd (hk.stackUnderflow_of_pop hop).2 hsp, fun _ => rfl⟩
  · exact ⟨i, hi, hwf, rfl, ⟨k, rfl, by simpa using (hk.tableRow (s := s) hop hwf).mem_instruction_causes⟩,
      (sameSlotsExcept_set s .sp _).trans (sameSlotsExcept_atFault _ k), rfl, rfl, rfl,
      fun _ _ => ⟨rfl, hk.dest_not_writable⟩, fun hno => (hno.elim (absurd hop) hsp).elim⟩

/-- Settles O17: each clause reads one row of the cause table. -/
theorem eachCauseComesFromItsInstructions : Obligations.EachCauseComesFromItsInstructions := by
  unfold Obligations.EachCauseComesFromItsInstructions
  intro s t i k n hr hi h ht hf
  rw [step_of_fetch hr hi, ← execWith_standard] at h
  obtain ⟨hwf, he⟩ := execWith_effect h
  obtain ⟨hrow, ⟨hbe, hbne⟩, hpop⟩ := he.tableRow_of_fault hwf hr ht hf
  have row {k' : Cause} (e : k = k') : TableRow i s k' := e ▸ hrow
  exact ⟨row, row, row, row, row, hbe, hbne, hpop, hrow.mem_instruction_causes⟩

end Sys2Proof.Machine
end

section
/-! The host's side: start, step, report and peek (`70_reset_and_hazards.md` R240 to R251): settles O5, O6 and O11. -/

namespace Sys2Proof.Machine

/-! ### Start and step -/

section
variable {c : Config} {p q : Port}

@[simp] theorem hostStart_started (c : Config) (ws : List Word) (s : State) : hostStart c ws (.started s) = none := rfl

/-- R243, R250: a start is possible right after reset only. -/
theorem hostStart_ne_none_iff {ws : List Word} : hostStart c ws p ≠ none ↔ p = .ready := by
  cases p with
  | ready => exact ⟨fun _ => rfl, fun _ => nofun⟩
  | started s => exact ⟨fun h => absurd rfl h, nofun⟩

theorem started_of_hostStart {ws : List Word} (h : hostStart c ws p = some q) : ∃ s, q = .started s := by
  cases p with
  | ready => exact ⟨_, (Option.some.inj h).symm⟩
  | started s => cases h

theorem hostStep_of_next {s : State} (h : stepWith c (p.state c) = .next s) : hostStep c p = .next (.started s) := by
  simp only [hostStep, h]

theorem started_of_hostStep (h : hostStep c p = .next q) : ∃ s, q = .started s := by
  unfold hostStep at h
  split at h
  next s _ => exact ⟨s, (Host.Outcome.next.inj h).symm⟩
  next => cases h
  next => cases h

/-- R39: a machine in which something has happened is not the one just reset. -/
theorem ne_ready_of_state (h : (p.state c).prog ≠ [] ∨ (p.state c).pc ≠ 0 ∨ (p.state c).run ≠ .running) :
    p ≠ .ready := by
  rintro rfl
  rcases h with h | h | h <;> exact h rfl

end

/-- Settles O5: a start and a step each leave a started machine, and only the machine just reset has a start. -/
theorem startIsAllowedOnlyRightAfterReset : Obligations.StartIsAllowedOnlyRightAfterReset := by
  unfold Obligations.StartIsAllowedOnlyRightAfterReset
  intro c ws p q
  refine ⟨hostStart_ne_none_iff, fun h ws' => ?_, fun h ws' => ?_, fun h => ?_, rfl⟩
  · obtain ⟨s, rfl⟩ := started_of_hostStart h
    exact hostStart_started c ws' s
  · obtain ⟨s, rfl⟩ := started_of_hostStep h
    exact hostStart_started c ws' s
  · exact not_not.1 (mt hostStart_ne_none_iff.1 (ne_ready_of_state h))

/-- R241: a machine just reset has no record to run, and its first step halts it. -/
theorem stepWith_reset (c : Config) (stack : Memory) :
    stepWith c (State.resetWith stack) = .next (haltRun (State.resetWith stack)) :=
  stepWith_of_end c rfl (Nat.zero_le _)

/-- Settles O11: a load of no words changes nothing, and a step with or without it finds PC at the program's end. -/
theorem emptyProgramHaltsAtOnce : Obligations.EmptyProgramHaltsAtOnce := fun c =>
  ⟨rfl, (stepWith_standard _).symm.trans (stepWith_reset .standard c.stackInit), stepWith_reset c c.stackInit,
    hostStep_of_next (p := .ready) (stepWith_reset c c.stackInit)⟩

/-! ### Report and peek -/

section
variable {c : Config} {s : State}

theorem doneReport_of_running (h : s.run = .running) : doneReport s = none := by simp only [doneReport, h]

theorem doneReport_of_halted (h : s.run = .halted) : doneReport s = some .halted := by simp only [doneReport, h]

theorem doneReport_of_faulted {k : Cause} {n : Nat} (h : s.run = .faulted)
    (hf : s.fault = some { cause := k, index := n }) : doneReport s = some (.faulted k n) := by
  simp only [doneReport, h, hf]

theorem peekSlot_regid (hc : c.Ok) (r : Reg) (s : State) : peekSlot c (c.enc.regid r) s = some (s.get r) := by
  rw [peekSlot, slotOf_regid hc r, Option.map_some, read_named]

theorem peekSlot_of_ge {id : Byte} (h : c.nreg ≤ id.toNat) (s : State) : peekSlot c id s = none := by
  rw [peekSlot, slotOf_of_ge h, Option.map_none]

theorem hostPeek_of_over (id : Byte) (h : s.over) : hostPeek c id (.started s) = peekSlot c id s := if_neg h

theorem hostPeek_of_running (id : Byte) (h : s.run = .running) : hostPeek c id (.started s) = none := if_pos h

theorem hostPeek_of_ge {id : Byte} (h : c.nreg ≤ id.toNat) (p : Port) : hostPeek c id p = none := by
  cases p with
  | ready => exact peekSlot_of_ge h _
  | started s =>
    by_cases hr : s.run = .running
    · exact hostPeek_of_running id hr
    · rw [hostPeek_of_over id hr, peekSlot_of_ge h]

end

/-- Settles O6: the report by the run state; a peek is the read of the slot where the run state allows it. -/
theorem hostSeesTheEndOfARunOnly : Obligations.HostSeesTheEndOfARunOnly := by
  unfold Obligations.HostSeesTheEndOfARunOnly
  intro c s hc
  refine ⟨doneReport_of_running, doneReport_of_halted, fun _ _ => doneReport_of_faulted,
    fun r => peekSlot_regid hc r _, fun hr r => ?_, fun _ p hid => hostPeek_of_ge hid p,
    fun hr id => hostPeek_of_running id hr⟩
  rw [hostPeek_of_over _ hr, peekSlot_regid hc]

end Sys2Proof.Machine
end
